-- ==== Sys2Proof/Config.lean ====
section
/-! DEFINITION. What a build of the block fixes: its three parameters (spec/00_scope.md R3, R6, R7, R8) and the widths
derived from them (R9). The spec leaves no value to a free choice of the machine while it runs (spec/93 has no row
treated as "any value"), so there is no opaque constant here. -/

namespace Sys2Proof

/-- The parameters of one build. The ranges of R6, R7 and R8 are carried as proofs, so that a build outside them (for
example more than 65536 inputs, spec/93 U19) cannot be written down. -/
structure Params where
  /-- `RB_DEPTH`, the number of ring slots (R6). -/
  D : Nat
  /-- `SNAP_BYTES`, the bytes of one snapshot (R7). -/
  S : Nat
  /-- `BTN_COUNT`, the number of logical input indices (R8). -/
  N : Nat
  hD : 1 ≤ D ∧ D ≤ 255 := by decide
  hS : 1 ≤ S := by decide
  hN : 1 ≤ N ∧ N ≤ 65536 := by decide
deriving DecidableEq, Repr

/-- `ceil(log2 n)` for `n ≥ 1`. -/
def ceilLog2 (n : Nat) : Nat := if n ≤ 1 then 0 else Nat.log2 (n - 1) + 1

/-- Width of `HEAD` and `TAIL` in bits (R9). -/
def Params.CW (cfg : Params) : Nat := max 1 (ceilLog2 cfg.D)

/-- Width of `COUNT` in bits (R9). -/
def Params.KW (cfg : Params) : Nat := max 1 (ceilLog2 (cfg.D + 1))

/-- Bytes of each of `PRESSED` and `LATCHED`, `ceil(N/8)` (R9). -/
def Params.NBY (cfg : Params) : Nat := (cfg.N + 7) / 8

/-- Width of the command's index field in bits (R9). -/
def Params.IW (_ : Params) : Nat := 16

/-- The build that `State.reset` starts: the values spec/95_test_vectors.md uses.
DESIGN CHOICE, unsafe (notes/assumptions/1.md): the spec leaves `D`, `S` and `N` open. Every definition of the machine and
every statement takes the parameters from the state, so that nothing but `State.reset` itself depends on these three
numbers. -/
def Config.build : Params := { D := 3, S := 1, N := 16 }

end Sys2Proof
end

