-- ==== Sys2Proof/Word.lean ====
section
/-! DEFINITION. The word and byte types of the block and the two plain enumerations that an instruction's operands and
the block's ports are written with (spec/00_scope.md R10, R11; spec/10_state.md R24, R25; spec/41_button_state.md R119). -/

namespace Sys2Proof

/-- A command or response word: 32 bits, bit 0 least significant (R10, R70, R80). -/
abbrev Word := BitVec 32

/-- One byte of a snapshot or of a bit-set (R50). -/
abbrev Byte := BitVec 8

/-- A snapshot: an ordered vector of bytes, byte 0 first, with no numeric weight (R7, R51). Its length is `S`. -/
abbrev Snapshot := List Byte

/-- The two command ports: P, the interrupt context, and M, the main loop (R24, R25, R153). -/
inductive Port where
  | p
  | m
deriving DecidableEq, Repr

/-- The resolved behaviour type of `BS_EDGE`, the input bit `L`: 0 momentary, 1 latching (R71, R119). -/
inductive Behaviour where
  | momentary
  | latching
deriving DecidableEq, Repr

end Sys2Proof
end

