-- ==== Sys2Proof/Machine/State.lean ====
section
/-! DEFINITION. The state of the machine as plain data: the nine elements of spec/10_state.md R20, which are the
block's whole state, and beside them the fields the model itself needs: the build's parameters, the command streams of
the two ports with the order they are served in, and the signals on the block's ports in the step last taken (R25).
Also the block's fault codes (spec/60_exceptions.md R142) and the refusals of the host's interface. -/

namespace Sys2Proof.Machine

/-- The fault codes of R142. A fault is TAKEN: its entry (R144) is a next state in which `FAULT` records it, so no
constructor is ever answered as the host's fault outcome (notes/assumptions/9.md). -/
inductive Fault where
  /-- Code 1, `F_ILLEGAL_OP`. Raised by the decoder on `OP` 0x0 or 0x9 to 0xF (R75). Safe: the spec gives the word no
  meaning, and the machine records the fault and halts. -/
  | illegalOp
  /-- Code 2, `F_PORT`. Raised by the decoder, and by each instruction's own check, on the port that may not issue the
  operation (R143, R153). Safe: the command has no effect. -/
  | wrongPort
  /-- Code 3, `F_RSV`. Raised by the decoder on a nonzero reserved field or a nonzero field the operation does not use
  (R73, R76). Safe: the command has no effect. -/
  | reserved
  /-- Code 4, `F_INDEX`. Raised by the decoder, and by each `BS_` instruction's own check, on an index `i ≥ N` (R110).
  Safe: the command has no effect. -/
  | index
  /-- Code 5, `F_UNWRITTEN`. Raised by `RB_CONSUME` on a slot that holds `UNSPEC` (R14, R93); no run from reset reaches
  it (R98). Safe: a fault in place of any value. -/
  | unwritten
deriving DecidableEq, Repr

/-- Why the model has no meaning for an instruction. -/
inductive Refusal where
  /-- Raised by an arm of `exec` for an instruction the model gives no meaning; no arm does. Safe: nothing is claimed
  of a refused instruction. -/
  | notModelled (mnemonic : String)
deriving DecidableEq, Repr

/-- The output events of the block (R35). -/
inductive Event where
  /-- `DBR(i)`: the request to the debounce filter to forget the history of index `i` (R118). -/
  | dbr (i : Nat)
deriving DecidableEq, Repr

/-- Who acts at a step: the agent of a port, which presents its next command (R59), or the host, which applies the
global reset (R172). -/
inductive Turn where
  | port (which : Port)
  | reset
deriving DecidableEq, Repr

/-- What reaches the block in one step. -/
inductive Arrival where
  /-- No command is presented on either port. -/
  | idle
  /-- The host's global reset (R172). -/
  | reset
  /-- A command on the active port. -/
  | command
deriving DecidableEq, Repr

/-- What agent P presents in one step: the word on `P.CMD` and the `S` bytes on `P.SNAP_IN` (R25, R79). -/
structure PCommand where
  cmd : Word
  snapIn : Snapshot
deriving DecidableEq, Repr

/-- The signals on the block's ports (R25) in the step last taken. The MODEL's own field, not state of the block
(notes/assumptions/4.md). An output that carries nothing in that step is `none`. -/
structure Ports where
  /-- The port whose command is served. -/
  active : Port
  /-- The word on that port's `CMD`. -/
  cmd : Word
  /-- `P.SNAP_IN`. -/
  snapIn : Snapshot
  /-- `P.RSP`. -/
  pRsp : Option Word
  /-- `M.RSP`. -/
  mRsp : Option Word
  /-- `M.SNAP_OUT` (R81). -/
  snapOut : Option Snapshot
  /-- `DBR`. -/
  dbr : Option Nat
deriving DecidableEq, Repr

/-- The ring's storage: slot number and contents of every slot that holds a value, slot numbers strictly rising; an
unlisted slot holds `UNSPEC` (R29, R40). The unit of this space is the slot (R50). -/
abbrev Slots := List (Nat × Snapshot)

/-- The storage of one bit-set: byte number and byte, byte numbers strictly rising and no byte 0x00 listed; an unlisted
byte reads as 0x00, the contents after reset (R40, R50, R52). -/
abbrev BitSet := List Host.Cell

/-- The machine. -/
structure State where
  /-- The build's parameters (R3). The MODEL's own field: fixed while the block runs (R175). -/
  params : Params
  /-- `HEAD`, the slot of the most recently accepted snapshot (R26). -/
  head : Nat
  /-- `TAIL`, the slot of the most recently consumed snapshot (R27). -/
  tail : Nat
  /-- `COUNT`, the snapshots held and not yet consumed (R28). -/
  count : Nat
  /-- `BUF` (R29). -/
  buf : Slots
  /-- `RDSNAP` (R30); `none` is `UNSPEC` (R14). -/
  rdsnap : Option Snapshot
  /-- `PRESSED` (R31). -/
  pressed : BitSet
  /-- `LATCHED` (R32). -/
  latched : BitSet
  /-- `FAULT` (R34). -/
  fault : BitVec 40
  /-- `EVENTS`, oldest first (R35). -/
  events : List Event
  /-- The signals on the ports in the step last taken. The MODEL's own field. -/
  ports : Ports
  /-- The commands agent P will still present, the next one first (R20, R59). The MODEL's own field. -/
  pQueue : List PCommand
  /-- The commands agent M will still present, the next one first (R20, R59). The MODEL's own field. -/
  mQueue : List Word
  /-- Who acts at each coming step, the next one first (R59, R172, R187). The MODEL's own field. -/
  turns : List Turn
deriving DecidableEq, Repr

/-- The ports before the first command: nothing is driven (R171). DESIGN CHOICE for the input fields, which no rule
reads before a command is presented (notes/assumptions/4.md). -/
def Ports.atReset : Ports :=
  { active := .m, cmd := 0, snapIn := [], pRsp := none, mRsp := none, snapOut := none, dbr := none }

/-- The state after the global reset of a build with parameters `cfg` (R40, R171), with no command presented yet. -/
def State.resetFor (cfg : Params) : State :=
  { params := cfg, head := 0, tail := 0, count := 0, buf := [], rdsnap := none, pressed := [], latched := [],
    fault := 0, events := [], ports := Ports.atReset, pQueue := [], mQueue := [], turns := [] }

/-- The machine right after reset, for the build of `Config.build` (notes/assumptions/1.md). -/
def State.reset : State := State.resetFor Config.build

end Sys2Proof.Machine
end

