-- ==== Sys2Proof/Syntax.lean ====
section
/-! DEFINITION. The instructions: one constructor per row of spec/opcode_table.json (spec/30_encoding.md R74). -/

namespace Sys2Proof

/-- The eight commands of the block (R74). `idx` is the 16-bit field `IDX`, `v` the bit `V`, `l` the bit `L` (R71, R72).
The snapshot of `RB_PRODUCE` is not in the word: it is the value on `P.SNAP_IN` (R72, R79). -/
inductive Instr where
  /-- `RB_PRODUCE` (R90): append one snapshot to the ring, or drop it if the ring is full. -/
  | rbProduce
  /-- `RB_CONSUME` (R93): remove the oldest snapshot and return a copy of it, or nothing. -/
  | rbConsume
  /-- `BS_GET_PRESSED` (R112): read `pressed[i]`. -/
  | bsGetPressed (idx : BitVec 16)
  /-- `BS_SET_PRESSED` (R113): write `pressed[i]`. -/
  | bsSetPressed (idx : BitVec 16) (v : Bool)
  /-- `BS_GET_LATCHED` (R114): read `latched[i]`. -/
  | bsGetLatched (idx : BitVec 16)
  /-- `BS_SET_LATCHED` (R115): write `latched[i]`. -/
  | bsSetLatched (idx : BitVec 16) (v : Bool)
  /-- `BS_RESET_INDEX` (R118): clear both bits of index `i` and emit `DBR(i)`. -/
  | bsResetIndex (idx : BitVec 16)
  /-- `BS_EDGE` (R120): detect an edge, record the new state, toggle the latch of a latching index. -/
  | bsEdge (idx : BitVec 16) (v : Bool) (l : Behaviour)
deriving DecidableEq, Repr

end Sys2Proof
end

