-- ==== Sys2Proof/WellFormed.lean ====
section
/-! DEFINITION. Which instructions a build with `n` logical indices can run: the index of every `BS_` command is below
`n` (spec/30_encoding.md R72, spec/41_button_state.md R110). Every other operand has no illegal value. -/

namespace Sys2Proof

/-- The logical index `i = zext_32(IDX)` an instruction names, if it is a `BS_` command (R72, R110). -/
def Instr.index? : Instr → Option Nat
  | .rbProduce => none
  | .rbConsume => none
  | .bsGetPressed idx => some idx.toNat
  | .bsSetPressed idx _ => some idx.toNat
  | .bsGetLatched idx => some idx.toNat
  | .bsSetLatched idx _ => some idx.toNat
  | .bsResetIndex idx => some idx.toNat
  | .bsEdge idx _ _ => some idx.toNat

/-- The check: an index, where there is one, is legal only when `i < N` (R110). -/
def Instr.wellFormed (n : Nat) (i : Instr) : Bool :=
  match i.index? with
  | none => true
  | some k => decide (k < n)

/-- `i` is an instruction that a build with `n` logical indices runs without an index fault. -/
abbrev WellFormed (n : Nat) (i : Instr) : Prop := i.wellFormed n = true

end Sys2Proof
end

