-- ==== Sys2Proof/Decode.lean ====
section
/-! DEFINITION. Decoding and encoding of command words (spec/30_encoding.md). `decode` is the total function of R78 on
the port, the word and the build's `N`: it answers the instruction or the first fault in the order of R146. `encode`
writes the word of an instruction from the same field layout (R71, R74). `rows` is the opcode map of R74. -/

namespace Sys2Proof

open Sys2Proof.Machine (Fault)

/-- The eight operations of R74. -/
inductive Op where
  | rbProduce
  | rbConsume
  | bsGetPressed
  | bsSetPressed
  | bsGetLatched
  | bsSetLatched
  | bsResetIndex
  | bsEdge
deriving DecidableEq, Repr

/-! ## The fields of a command word (R71) -/

/-- `OP`, bits 3:0. -/
def fieldOP (w : Word) : BitVec 4 := w.extractLsb' 0 4

/-- `V`, bit 4. -/
def fieldV (w : Word) : Bool := w.getLsbD 4

/-- `L`, bit 5. -/
def fieldL (w : Word) : Bool := w.getLsbD 5

/-- `RSVL`, bits 7:6, reserved. -/
def fieldRSVL (w : Word) : BitVec 2 := w.extractLsb' 6 2

/-- `IDX`, bits 23:8. -/
def fieldIDX (w : Word) : BitVec 16 := w.extractLsb' 8 16

/-- `RSVH`, bits 31:24, reserved. -/
def fieldRSVH (w : Word) : BitVec 8 := w.extractLsb' 24 8

/-- The bit `L` as a behaviour type: 0 momentary, 1 latching (R71). -/
def behaviourOfBit (b : Bool) : Behaviour := if b then .latching else .momentary

/-- A behaviour type as the bit `L` (R71). -/
def Behaviour.bit : Behaviour → Bool
  | .momentary => false
  | .latching => true

/-! ## The operations (R73, R74) -/

/-- The operation an `OP` value selects; 0x0 and 0x9 to 0xF select none (R75). -/
def opOfField (f : BitVec 4) : Option Op :=
  match f.toNat with
  | 1 => some .rbProduce
  | 2 => some .rbConsume
  | 3 => some .bsGetPressed
  | 4 => some .bsSetPressed
  | 5 => some .bsGetLatched
  | 6 => some .bsSetLatched
  | 7 => some .bsResetIndex
  | 8 => some .bsEdge
  | _ => none

/-- The `OP` value of an operation (R74). -/
def Op.code : Op → BitVec 4
  | .rbProduce => 1
  | .rbConsume => 2
  | .bsGetPressed => 3
  | .bsSetPressed => 4
  | .bsGetLatched => 5
  | .bsSetLatched => 6
  | .bsResetIndex => 7
  | .bsEdge => 8

/-- The one port an operation is legal on (R74, R143, R153). -/
def Op.port : Op → Port
  | .rbProduce => .p
  | .rbConsume => .m
  | .bsGetPressed => .m
  | .bsSetPressed => .m
  | .bsGetLatched => .m
  | .bsSetLatched => .m
  | .bsResetIndex => .m
  | .bsEdge => .m

/-- Whether an operation uses `IDX` (R73). -/
def Op.usesIDX : Op → Bool
  | .rbProduce => false
  | .rbConsume => false
  | .bsGetPressed => true
  | .bsSetPressed => true
  | .bsGetLatched => true
  | .bsSetLatched => true
  | .bsResetIndex => true
  | .bsEdge => true

/-- Whether an operation uses `L` (R73). -/
def Op.usesL : Op → Bool
  | .rbProduce => false
  | .rbConsume => false
  | .bsGetPressed => false
  | .bsSetPressed => false
  | .bsGetLatched => false
  | .bsSetLatched => false
  | .bsResetIndex => false
  | .bsEdge => true

/-- Whether an operation uses `V` (R73). -/
def Op.usesV : Op → Bool
  | .rbProduce => false
  | .rbConsume => false
  | .bsGetPressed => false
  | .bsSetPressed => true
  | .bsGetLatched => false
  | .bsSetLatched => true
  | .bsResetIndex => false
  | .bsEdge => true

/-- The operation of an instruction. -/
def Instr.op : Instr → Op
  | .rbProduce => .rbProduce
  | .rbConsume => .rbConsume
  | .bsGetPressed _ => .bsGetPressed
  | .bsSetPressed _ _ => .bsSetPressed
  | .bsGetLatched _ => .bsGetLatched
  | .bsSetLatched _ _ => .bsSetLatched
  | .bsResetIndex _ => .bsResetIndex
  | .bsEdge _ _ _ => .bsEdge

/-- The instruction an operation makes with the operand fields (R72). -/
def Op.instr (op : Op) (idx : BitVec 16) (v : Bool) (l : Behaviour) : Instr :=
  match op with
  | .rbProduce => .rbProduce
  | .rbConsume => .rbConsume
  | .bsGetPressed => .bsGetPressed idx
  | .bsSetPressed => .bsSetPressed idx v
  | .bsGetLatched => .bsGetLatched idx
  | .bsSetLatched => .bsSetLatched idx v
  | .bsResetIndex => .bsResetIndex idx
  | .bsEdge => .bsEdge idx v l

/-! ## The decoder (R78) -/

/-- A reserved field is nonzero (R76). -/
def reservedSet (w : Word) : Bool := fieldRSVH w != 0 || fieldRSVL w != 0

/-- A field that `op` does not use is nonzero (R73). -/
def unusedSet (op : Op) (w : Word) : Bool :=
  (!op.usesIDX && fieldIDX w != 0) || (!op.usesL && fieldL w) || (!op.usesV && fieldV w)

/-- Decode the word `w` on `port` in a build with `n` logical indices: illegal operation, then wrong port, then reserved
and unused fields, then index range (R78, R146). -/
def decode (n : Nat) (port : Port) (w : Word) : Except Fault Instr :=
  match opOfField (fieldOP w) with
  | none => .error .illegalOp
  | some op =>
    if op.port ≠ port then .error .wrongPort
    else if reservedSet w || unusedSet op w then .error .reserved
    else if op.usesIDX && decide (n ≤ (fieldIDX w).toNat) then .error .index
    else .ok (op.instr (fieldIDX w) (fieldV w) (behaviourOfBit (fieldL w)))

/-! ## The encoder (R71, R74) -/

/-- The operand fields of an instruction: `IDX`, `L`, `V`, each 0 where the operation does not use it (R73). -/
def Instr.fields : Instr → BitVec 16 × Bool × Bool
  | .rbProduce => (0, false, false)
  | .rbConsume => (0, false, false)
  | .bsGetPressed idx => (idx, false, false)
  | .bsSetPressed idx v => (idx, false, v)
  | .bsGetLatched idx => (idx, false, false)
  | .bsSetLatched idx v => (idx, false, v)
  | .bsResetIndex idx => (idx, false, false)
  | .bsEdge idx v l => (idx, l.bit, v)

/-- The word with the given fields and both reserved fields 0, bit 31 first (R71). -/
def packWord (idx : BitVec 16) (l v : Bool) (op : BitVec 4) : Word :=
  (0#8 : BitVec 8) ++ idx ++ (0#2 : BitVec 2) ++ BitVec.ofBool l ++ BitVec.ofBool v ++ op

/-- The word of an instruction (R74). -/
def encode (i : Instr) : Word := packWord i.fields.1 i.fields.2.1 i.fields.2.2 i.op.code

/-! ## The opcode map (R74) -/

/-- One row of the opcode map: a word `w` selects the row when `w & mask = pat`. -/
structure Row where
  op : Op
  pat : Word
  mask : Word
deriving DecidableEq, Repr

/-- The rows of R74, in its order. -/
def rows : List Row :=
  [ { op := .rbProduce,    pat := 0x00000001, mask := 0xFFFFFFFF },
    { op := .rbConsume,    pat := 0x00000002, mask := 0xFFFFFFFF },
    { op := .bsGetPressed, pat := 0x00000003, mask := 0xFF0000FF },
    { op := .bsSetPressed, pat := 0x00000004, mask := 0xFF0000EF },
    { op := .bsGetLatched, pat := 0x00000005, mask := 0xFF0000FF },
    { op := .bsSetLatched, pat := 0x00000006, mask := 0xFF0000EF },
    { op := .bsResetIndex, pat := 0x00000007, mask := 0xFF0000FF },
    { op := .bsEdge,       pat := 0x00000008, mask := 0xFF0000CF } ]

/-- `w` selects the row (R74). -/
def Row.selects (r : Row) (w : Word) : Bool := w &&& r.mask == r.pat

/-! ## The host's view of the decoder -/

/-- The port a word's operation is legal on; a word with no operation is given to M (notes/assumptions/12.md). -/
def homePort (w : Word) : Port :=
  match opOfField (fieldOP w) with
  | some op => op.port
  | none => .m

/-- The word of a table row: the low `nbits` bits of `w`, every bit above 0. -/
def tableWord (nbits w : Nat) : Word := BitVec.ofNat 32 (w % 2 ^ nbits)

/-- The instruction the decoder reads from a table word, on the port its operation is legal on, in the largest build
(65536 indices, where no index is out of range). DESIGN CHOICE (notes/assumptions/12.md): the table gives a word neither
a port nor a build. -/
def decodeTableWord (nbits w : Nat) : Option Instr :=
  match decode 65536 (homePort (tableWord nbits w)) (tableWord nbits w) with
  | .ok i => some i
  | .error _ => none

end Sys2Proof
end

