-- ==== Sys2Proof/Machine/Flags.lean ====
section
/-! DEFINITION. The block has no flag register (spec/10_state.md R23). What stands here is what takes its place: the two
conditions computed from `COUNT` when a command needs them, and the response word with its result bits
(spec/30_encoding.md R80). -/

namespace Sys2Proof.Machine

/-- "Full" is the condition `COUNT == D` (R23). -/
def full (s : State) : Bool := s.count == s.params.D

/-- "Empty" is the condition `COUNT == 0` (R23). -/
def empty (s : State) : Bool := s.count == 0

/-- The named fields of a response; a field an operation does not produce is 0 (R80). -/
structure Response where
  /-- `RB_CONSUME`: a snapshot was returned. -/
  present : Bool := false
  /-- `BS_GET_PRESSED`, `BS_GET_LATCHED`: the bit read. -/
  bit : Bool := false
  /-- `BS_EDGE`: the pressed state changed. -/
  edge : Bool := false
  /-- `BS_EDGE`: the engine is to dispatch `EFF`. -/
  send : Bool := false
  /-- `BS_EDGE`: the effective value. -/
  eff : Bool := false
  /-- The command faulted, or the block was already halted. -/
  flt : Bool := false
deriving DecidableEq, Repr

/-- The response word, bit 31 first: reserved 31:8, `FLT` 7, reserved 6:5, `EFF` 4, `SEND` 3, `EDGE` 2, `BIT` 1,
`PRESENT` 0 (R80). -/
def Response.word (r : Response) : Word :=
  (0#24 : BitVec 24) ++ BitVec.ofBool r.flt ++ (0#2 : BitVec 2) ++ BitVec.ofBool r.eff ++ BitVec.ofBool r.send
    ++ BitVec.ofBool r.edge ++ BitVec.ofBool r.bit ++ BitVec.ofBool r.present

end Sys2Proof.Machine
end

