-- ==== Sys2Proof/Machine/Memory.lean ====
section
/-! DEFINITION. The storage of the block (spec/20_memory.md R50 to R53): an association list with rising keys, the ring's
slots over it (an unlisted slot holds `UNSPEC`), and the bytes and bits of the two bit-sets over it (an unlisted byte
reads as 0x00). Every write keeps the canonical form (Laws/Memory.lean). -/

namespace Sys2Proof.Machine

/-! ## Association lists with rising keys -/

/-- What is stored at key `a`, if anything. -/
def Store.get {α : Type} : List (Nat × α) → Nat → Option α
  | [], _ => none
  | c :: r, a => if a = c.1 then some c.2 else Store.get r a

/-- Store `x` at key `a`, in place or before the first larger key. -/
def Store.insert {α : Type} : List (Nat × α) → Nat → α → List (Nat × α)
  | [], a, x => [(a, x)]
  | c :: r, a, x =>
    if a < c.1 then (a, x) :: c :: r
    else if a = c.1 then (a, x) :: r
    else c :: Store.insert r a x

/-- Remove what is stored at key `a`. -/
def Store.erase {α : Type} : List (Nat × α) → Nat → List (Nat × α)
  | [], _ => []
  | c :: r, a => if a = c.1 then Store.erase r a else c :: Store.erase r a

/-- The keys rise strictly: no key is listed twice, and equal contents are equal lists. -/
abbrev Store.rising {α : Type} (m : List (Nat × α)) : Prop := m.Pairwise (fun a b => a.1 < b.1)

/-! ## The ring's slots (R29, R50) -/

/-- `MemRead(BUF:k, S)`: the snapshot in slot `k`, or no value when the slot holds `UNSPEC` (R12, R14). -/
def Slots.read (b : Slots) (k : Nat) : Option Snapshot := Store.get b k

/-- `MemWrite(BUF:k, S, x)`: the snapshot `x` whole into slot `k` (R12, R51). -/
def Slots.write (b : Slots) (k : Nat) (x : Snapshot) : Slots := Store.insert b k x

/-- The canonical form of the ring's storage. -/
abbrev Slots.wf (b : Slots) : Prop := Store.rising b

/-! ## The bytes of a bit-set (R50) -/

/-- The byte at `a`; an unlisted byte reads as 0x00, its contents after reset (R40). -/
def Memory.read (m : BitSet) (a : Nat) : Byte := (Store.get m a).getD 0

/-- Write byte `x` at `a`; writing what an unlisted byte reads as removes the entry. -/
def Memory.write (m : BitSet) (a : Nat) (x : Byte) : BitSet :=
  if x = 0 then Store.erase m a else Store.insert m a x

/-- The canonical form of a bit-set's storage: keys rising, no byte 0x00 listed. -/
abbrev Memory.wf (m : BitSet) : Prop := Store.rising m ∧ ∀ c ∈ m, c.2 ≠ 0

/-! ## The bits of a bit-set (R52) -/

/-- Byte `x` with bit `k` made `b`, the other bits kept; bit 0 is the least significant. -/
def setBit (x : Byte) (k : Nat) (b : Bool) : Byte :=
  if b then x ||| (1#8 <<< k) else x &&& ~~~(1#8 <<< k)

/-- `BitGet(SET, i)`: bit `i mod 8` of byte `i div 8` (R12, R52). -/
def bitGet (m : BitSet) (i : Nat) : Bool := (Memory.read m (i / 8)).getLsbD (i % 8)

/-- `BitPut(SET, i, b)`: the same bit written, the other seven bits of the byte unchanged (R12, R52). -/
def bitPut (m : BitSet) (i : Nat) (b : Bool) : BitSet :=
  Memory.write m (i / 8) (setBit (Memory.read m (i / 8)) (i % 8) b)

end Sys2Proof.Machine
end

