-- ==== Sys2Proof/Machine/Operands.lean ====
section
/-! DEFINITION. The operands of a command beyond the word's own fields: the next value of a cursor (spec/40_ring_buffer.md
R100), the snapshot on `P.SNAP_IN` (spec/30_encoding.md R79), and the legality of a port and of an index
(spec/60_exceptions.md R143, spec/41_button_state.md R110). -/

namespace Sys2Proof.Machine

/-- The cursor following `c`, wrapping at `D`: `(c + 1) mod D` (R100). -/
def nextCursor (d c : Nat) : Nat := (c + 1) % d

/-- The slot an accepted produce writes: the one the advanced `HEAD` names (R90, R178). -/
def produceSlot (s : State) : Nat := nextCursor s.params.D s.head

/-- The slot a successful consume reads: the one the advanced `TAIL` names (R93, R178). -/
def consumeSlot (s : State) : Nat := nextCursor s.params.D s.tail

/-- The snapshot operand of `RB_PRODUCE`: the value on `P.SNAP_IN` in the same step (R79). -/
def snapOperand (s : State) : Snapshot := s.ports.snapIn

/-- The active port may issue `op` (R143, R153). -/
def portLegal (op : Op) (s : State) : Bool := s.ports.active == op.port

/-- `i` is a logical index of this build (R110). -/
def indexLegal (i : Nat) (s : State) : Bool := decide (i < s.params.N)

end Sys2Proof.Machine
end

