-- ==== Sys2Proof/Machine/Ops.lean ====
section
/-! DEFINITION. The shared operations of the machine: the fields of `FAULT`, driving a response, taking a fault (the one
exception entry of the block, spec/60_exceptions.md R144) and the global reset (the one way out of it, R149), the frame
of a command (halt, port and index checks, R110, R143, R148), and what arrives at the block in a step (R59). -/

namespace Sys2Proof.Machine

/-! ## The `FAULT` register (R34) -/

/-- `VALID`, bit 0. -/
def faultValid (f : BitVec 40) : Bool := f.getLsbD 0

/-- `CODE`, bits 3:1. -/
def faultCode (f : BitVec 40) : BitVec 3 := f.extractLsb' 1 3

/-- `PORT`, bit 4: 0 for M, 1 for P. -/
def faultPort (f : BitVec 40) : Bool := f.getLsbD 4

/-- The reserved bits 7:5. -/
def faultReserved (f : BitVec 40) : BitVec 3 := f.extractLsb' 5 3

/-- `CMD`, bits 39:8: the faulting command word, unchanged. -/
def faultCmd (f : BitVec 40) : Word := f.extractLsb' 8 32

/-- The code number of a fault (R142). -/
def Fault.code : Fault → BitVec 3
  | .illegalOp => 1
  | .wrongPort => 2
  | .reserved => 3
  | .index => 4
  | .unwritten => 5

/-- A port as the bit `PORT` (R34). -/
def portBit : Port → Bool
  | .m => false
  | .p => true

/-- `{VALID = 1, CODE = c, PORT = port, CMD = w}` as the register's 40 bits, bit 39 first (R34, R144). -/
def packFault (c : Fault) (port : Port) (w : Word) : BitVec 40 :=
  w ++ (0#3 : BitVec 3) ++ BitVec.ofBool (portBit port) ++ c.code ++ (1#1 : BitVec 1)

/-- The block is halted: `FAULT.VALID = 1` (R148). -/
def halted (s : State) : Bool := faultValid s.fault

/-! ## Responses (R25, R80, R81) -/

/-- The outputs of one step: the response word on the active port, nothing on the other port's response, and what the
command drives on `M.SNAP_OUT` and `DBR` (nothing, for most commands). -/
def Ports.answer (io : Ports) (w : Word) (snapOut : Option Snapshot) (dbr : Option Nat) : Ports :=
  match io.active with
  | .p => { io with pRsp := some w, mRsp := none, snapOut := snapOut, dbr := dbr }
  | .m => { io with pRsp := none, mRsp := some w, snapOut := snapOut, dbr := dbr }

/-- The ports in a step in which nothing is driven. -/
def Ports.quiet (io : Ports) : Ports := { io with pRsp := none, mRsp := none, snapOut := none, dbr := none }

/-- `respond {...}` with no value on `M.SNAP_OUT` or `DBR` (R12). -/
def respond (r : Response) (s : State) : State := { s with ports := s.ports.answer r.word none none }

/-- `respond {...}` with a snapshot on `M.SNAP_OUT` (R81). -/
def respondSnap (r : Response) (x : Snapshot) (s : State) : State :=
  { s with ports := s.ports.answer r.word (some x) none }

/-- `emit DBR(i)` (R12, R35, R118): append the event to `EVENTS`, drive the index on port `DBR`, and respond. -/
def respondDbr (r : Response) (i : Nat) (s : State) : State :=
  { s with events := s.events ++ [.dbr i], ports := s.ports.answer r.word none (some i) }

/-! ## Taking a fault, and the return from one -/

/-- Fault entry (R144): record code, port and word in `FAULT`, respond `FLT`, change nothing else. `FAULT` is written
only while `VALID` is 0 (R34): the callers check `halted` first. -/
def raise (c : Fault) (s : State) : State :=
  respond { flt := true } { s with fault := packFault c s.ports.active s.ports.cmd }

/-- A command in a halted block (R148): no state changes, `FAULT` keeps the first fault, the response is `FLT`. -/
def ignoreHalted (s : State) : State := respond { flt := true } s

/-- The global reset (R170 to R172), the only end of a halt (R149): every element to its reset value, no response, no
event. The parameters stay (R175), and so do the commands the agents have still to present, which are no state of the
block (R20; notes/assumptions/10.md). -/
def globalReset (s : State) : State :=
  { State.resetFor s.params with pQueue := s.pQueue, mQueue := s.mQueue, turns := s.turns }

/-! ## The frame of a command -/

/-- A command of operation `op`: ignored in a halted block (R148), fault code 2 on the wrong port (R143), else its
effect. DEDUCED (notes/assumptions/8.md): the decoder has made the same checks before (R78); they stand here so that the
meaning of an instruction is whole by itself. -/
def command (op : Op) (effect : State → State) (s : State) : State :=
  if halted s then ignoreHalted s
  else if portLegal op s then effect s
  else raise .wrongPort s

/-- A `BS_` command on index `idx`: as `command`, and fault code 4 when `i ≥ N` (R110). -/
def buttonCommand (op : Op) (idx : BitVec 16) (effect : Nat → State → State) (s : State) : State :=
  command op (fun t => if indexLegal idx.toNat t then effect idx.toNat t else raise .index t) s

/-! ## What arrives in a step -/

/-- A step in which no command is presented: the block does nothing and drives nothing. DESIGN CHOICE
(notes/assumptions/3.md): the spec speaks only of steps that take a command. -/
def idleStep (s : State) : State := { s with ports := s.ports.quiet }

/-- What the next turn brings, and the state with that turn taken and the command, if any, on its port (R25, R59). The
commands of one port arrive in the order the port presents them. -/
def arrival (s : State) : Arrival × State :=
  match s.turns with
  | [] => (.idle, s)
  | .reset :: ts => (.reset, { s with turns := ts })
  | .port .p :: ts =>
    match s.pQueue with
    | [] => (.idle, { s with turns := ts })
    | c :: cs =>
      (.command, { s with turns := ts, pQueue := cs,
                          ports := { s.ports with active := .p, cmd := c.cmd, snapIn := c.snapIn } })
  | .port .m :: ts =>
    match s.mQueue with
    | [] => (.idle, { s with turns := ts })
    | w :: ws =>
      (.command, { s with turns := ts, mQueue := ws, ports := { s.ports with active := .m, cmd := w } })

/-- `s` with the command word `w` presented next on `port`: one turn and one command put before all others. With a
command of port P, `P.SNAP_IN` carries `S` bytes of zeros. It stands for the agent that presents the command
(notes/assumptions/2.md, notes/assumptions/12.md). -/
def presentNext (port : Port) (w : Word) (s : State) : State :=
  match port with
  | .p => { s with turns := .port .p :: s.turns
                   pQueue := { cmd := w, snapIn := List.replicate s.params.S 0 } :: s.pQueue }
  | .m => { s with turns := .port .m :: s.turns, mQueue := w :: s.mQueue }

/-- The decoding of the command on the active port (R78, R147). -/
def fetch (s : State) : Except Fault Instr := decode s.params.N s.ports.active s.ports.cmd

end Sys2Proof.Machine
end

