-- ==== Sys2Proof/Machine/Button.lean ====
section
/-! DEFINITION. The meanings of the six button file commands (spec/41_button_state.md). -/

namespace Sys2Proof.Machine

/-- `BS_GET_PRESSED` (R112): respond with `pressed[i]`. -/
def execBsGetPressed (idx : BitVec 16) (s : State) : Host.Outcome State Fault Refusal :=
  .next (buttonCommand .bsGetPressed idx (fun i t => respond { bit := bitGet t.pressed i } t) s)

/-- `BS_SET_PRESSED` (R113, R126): `pressed[i] <- V`, with no edge logic. -/
def execBsSetPressed (idx : BitVec 16) (v : Bool) (s : State) : Host.Outcome State Fault Refusal :=
  .next (buttonCommand .bsSetPressed idx (fun i t => respond {} { t with pressed := bitPut t.pressed i v }) s)

/-- `BS_GET_LATCHED` (R114): respond with `latched[i]`. -/
def execBsGetLatched (idx : BitVec 16) (s : State) : Host.Outcome State Fault Refusal :=
  .next (buttonCommand .bsGetLatched idx (fun i t => respond { bit := bitGet t.latched i } t) s)

/-- `BS_SET_LATCHED` (R115, R126): `latched[i] <- V`, with no edge logic. -/
def execBsSetLatched (idx : BitVec 16) (v : Bool) (s : State) : Host.Outcome State Fault Refusal :=
  .next (buttonCommand .bsSetLatched idx (fun i t => respond {} { t with latched := bitPut t.latched i v }) s)

/-- `BS_RESET_INDEX` (R118): clear both bits of `i`, emit `DBR(i)`. -/
def execBsResetIndex (idx : BitVec 16) (s : State) : Host.Outcome State Fault Refusal :=
  .next (buttonCommand .bsResetIndex idx
    (fun i t => respondDbr {} i { t with pressed := bitPut t.pressed i false
                                         latched := bitPut t.latched i false }) s)

/-- The effect of `BS_EDGE` (R120), the source's steps 1, 2 and 5: no edge, nothing; else record the new state; a latching
index inverts its latch on a press and sends the new latch value, and sends nothing on a release; a momentary index
sends the new state on both edges. `EFF` is 0 whenever `SEND` is 0. -/
def edgeEffect (v : Bool) (l : Behaviour) (i : Nat) (s : State) : State :=
  if v = bitGet s.pressed i then respond {} s
  else
    match l with
    | .latching =>
      if v then
        respond { edge := true, send := true, eff := !bitGet s.latched i }
          { s with pressed := bitPut s.pressed i v
                   latched := bitPut s.latched i (!bitGet s.latched i) }
      else respond { edge := true } { s with pressed := bitPut s.pressed i v }
    | .momentary =>
      respond { edge := true, send := true, eff := v } { s with pressed := bitPut s.pressed i v }

/-- `BS_EDGE` (R119 to R125). -/
def execBsEdge (idx : BitVec 16) (v : Bool) (l : Behaviour) (s : State) : Host.Outcome State Fault Refusal :=
  .next (buttonCommand .bsEdge idx (edgeEffect v l) s)

end Sys2Proof.Machine
end

