-- ==== Sys2Proof/Machine/Ring.lean ====
section
/-! DEFINITION. The meanings of the two ring commands (spec/40_ring_buffer.md). -/

namespace Sys2Proof.Machine

/-- The effect of `RB_PRODUCE` (R90): drop when full; else advance `HEAD`, write the slot it names, count. -/
def produceEffect (s : State) : State :=
  if full s then respond {} s
  else
    respond {} { s with head := produceSlot s
                        buf := Slots.write s.buf (produceSlot s) (snapOperand s)
                        count := s.count + 1 }

/-- The effect of `RB_CONSUME` (R93): nothing when empty; else advance `TAIL`, copy the slot it names into `RDSNAP`,
uncount. A slot that holds `UNSPEC` raises fault code 5, and then the command has no other effect (R144, R145). -/
def consumeEffect (s : State) : State :=
  if empty s then respond {} s
  else
    match Slots.read s.buf (consumeSlot s) with
    | none => raise .unwritten s
    | some x =>
      respondSnap { present := true } x { s with tail := consumeSlot s
                                                 rdsnap := some x
                                                 count := s.count - 1 }

/-- `RB_PRODUCE` (R90 to R92). -/
def execRbProduce (s : State) : Host.Outcome State Fault Refusal :=
  .next (command .rbProduce produceEffect s)

/-- `RB_CONSUME` (R93 to R95). -/
def execRbConsume (s : State) : Host.Outcome State Fault Refusal :=
  .next (command .rbConsume consumeEffect s)

end Sys2Proof.Machine
end

