-- ==== Sys2Proof/Machine/Dispatch.lean ====
section
/-! DEFINITION. The dispatch: one arm per constructor of `Instr`, each one direct call of its meaning. -/

namespace Sys2Proof.Machine

def exec (i : Instr) (s : State) : Host.Outcome State Fault Refusal :=
  match i with
  | .rbProduce => Sys2Proof.Machine.execRbProduce s
  | .rbConsume => Sys2Proof.Machine.execRbConsume s
  | .bsGetPressed idx => Sys2Proof.Machine.execBsGetPressed idx s
  | .bsSetPressed idx v => Sys2Proof.Machine.execBsSetPressed idx v s
  | .bsGetLatched idx => Sys2Proof.Machine.execBsGetLatched idx s
  | .bsSetLatched idx v => Sys2Proof.Machine.execBsSetLatched idx v s
  | .bsResetIndex idx => Sys2Proof.Machine.execBsResetIndex idx s
  | .bsEdge idx v l => Sys2Proof.Machine.execBsEdge idx v l s

end Sys2Proof.Machine
end

