-- ==== Sys2Proof/Machine/Command.lean ====
section
/-! DEFINITION. The command step (spec/60_exceptions.md R147). -/

namespace Sys2Proof.Machine

/-- The command step on the active port (R147): ignored when halted, else decoded, and executed or faulted. -/
def commandStep (s : State) : Host.Outcome State Fault Refusal :=
  if halted s then .next (ignoreHalted s)
  else
    match fetch s with
    | .error c => .next (raise c s)
    | .ok i => exec i s

end Sys2Proof.Machine
end

