-- ==== Sys2Proof/Machine/Step.lean ====
section
/-! DEFINITION. One step of the machine (spec/60_exceptions.md R147): what the next turn brings is taken from its stream
and served whole, as one indivisible step (spec/00_scope.md R13, spec/20_memory.md R58). -/

namespace Sys2Proof.Machine

/-- One step of the machine: no command, the host's reset (R172), or the command of one port (R147). -/
def step (s : State) : Host.Outcome State Fault Refusal :=
  match arrival s with
  | (.idle, t) => .next (idleStep t)
  | (.reset, t) => .next (globalReset t)
  | (.command, t) => commandStep t

/-- `s` with the table word presented next, on the port its operation is legal on (notes/assumptions/12.md). -/
def State.withFetchWord (s : State) (nbits w : Nat) : State :=
  presentNext (homePort (tableWord nbits w)) (tableWord nbits w) s

end Sys2Proof.Machine
end

