-- ==== Sys2Proof/Machine/Assembler.lean ====
section
/-! DEFINITION. The assembler of the block (spec/30_encoding.md R82, R83): the commands and pseudo-instructions as data,
their expansion to instructions, the word and port of a line, and the reading of a line's text as a list of characters.
The text form has no behaviour (spec/92_eei_decisions.md D35). -/

namespace Sys2Proof.Machine

/-- The commands of R82 and the pseudo-instructions of R83. -/
inductive AsmCommand where
  /-- `rb.produce <snap>` -/
  | produce (snap : Snapshot)
  /-- `rb.consume` -/
  | consume
  /-- `bs.getp <i>` -/
  | getp (i : BitVec 16)
  /-- `bs.setp <i>, <v>` -/
  | setp (i : BitVec 16) (v : Bool)
  /-- `bs.getl <i>` -/
  | getl (i : BitVec 16)
  /-- `bs.setl <i>, <v>` -/
  | setl (i : BitVec 16) (v : Bool)
  /-- `bs.rst <i>` -/
  | rst (i : BitVec 16)
  /-- `bs.edge <i>, <v>, mom` and `bs.edge <i>, <v>, lat` -/
  | edge (i : BitVec 16) (v : Bool) (l : Behaviour)
  /-- `bs.clrp <i>` (R83) -/
  | clrp (i : BitVec 16)
  /-- `bs.clrl <i>` (R83) -/
  | clrl (i : BitVec 16)
  /-- `bs.press <i>, mom` and `bs.press <i>, lat` (R83) -/
  | press (i : BitVec 16) (l : Behaviour)
  /-- `bs.release <i>, mom` and `bs.release <i>, lat` (R83) -/
  | release (i : BitVec 16) (l : Behaviour)
deriving DecidableEq, Repr

/-- One line: a command, with or without a port written before it (R82). -/
structure AsmLine where
  port : Option Port
  command : AsmCommand
deriving DecidableEq, Repr

/-- What a line presents: the port, the word, and the snapshot on `P.SNAP_IN` where the command has one. -/
structure Presented where
  port : Port
  word : Word
  snap : Option Snapshot
deriving DecidableEq, Repr

/-- The instruction of a command; a pseudo-instruction expands (R83). -/
def AsmCommand.instr : AsmCommand → Instr
  | .produce _ => .rbProduce
  | .consume => .rbConsume
  | .getp i => .bsGetPressed i
  | .setp i v => .bsSetPressed i v
  | .getl i => .bsGetLatched i
  | .setl i v => .bsSetLatched i v
  | .rst i => .bsResetIndex i
  | .edge i v l => .bsEdge i v l
  | .clrp i => .bsSetPressed i false
  | .clrl i => .bsSetLatched i false
  | .press i l => .bsEdge i true l
  | .release i l => .bsEdge i false l

/-- The snapshot operand of a command. -/
def AsmCommand.snap : AsmCommand → Option Snapshot
  | .produce x => some x
  | .consume => none
  | .getp _ => none
  | .setp _ _ => none
  | .getl _ => none
  | .setl _ _ => none
  | .rst _ => none
  | .edge _ _ _ => none
  | .clrp _ => none
  | .clrl _ => none
  | .press _ _ => none
  | .release _ _ => none

/-- Assemble a line: `rb.produce` defaults to port P and every other command to port M (R82). -/
def assemble (line : AsmLine) : Presented :=
  { port := line.port.getD line.command.instr.op.port
    word := encode line.command.instr
    snap := line.command.snap }

/-! ## Reading a line's text (R82)

DESIGN CHOICE (notes/assumptions/14.md): tokens are separated by spaces or tabs, a comma is a token of its own, the
letters of a hexadecimal literal may be of either case. -/

/-- The value of a decimal digit. -/
def decDigit (c : Char) : Option Nat :=
  if 48 ≤ c.toNat ∧ c.toNat ≤ 57 then some (c.toNat - 48) else none

/-- The value of a hexadecimal digit. -/
def hexDigit (c : Char) : Option Nat :=
  if 48 ≤ c.toNat ∧ c.toNat ≤ 57 then some (c.toNat - 48)
  else if 97 ≤ c.toNat ∧ c.toNat ≤ 102 then some (c.toNat - 87)
  else if 65 ≤ c.toNat ∧ c.toNat ≤ 70 then some (c.toNat - 55)
  else none

/-- The number written by `cs` in base `b`, after the digits whose value is `acc`. -/
def digitsValue (digit : Char → Option Nat) (b : Nat) : List Char → Nat → Option Nat
  | [], acc => some acc
  | c :: cs, acc =>
    match digit c with
    | none => none
    | some d => digitsValue digit b cs (acc * b + d)

/-- A decimal or hexadecimal number. -/
def readNumber : List Char → Option Nat
  | [] => none
  | '0' :: 'x' :: c :: cs => digitsValue hexDigit 16 (c :: cs) 0
  | c :: cs => digitsValue decDigit 10 (c :: cs) 0

/-- `<i>`: a number in `0 .. 65535`. -/
def readIndex (cs : List Char) : Option (BitVec 16) :=
  match readNumber cs with
  | some n => if n < 65536 then some (BitVec.ofNat 16 n) else none
  | none => none

/-- `<v>`: 0 or 1. -/
def readBit : List Char → Option Bool
  | ['0'] => some false
  | ['1'] => some true
  | _ => none

/-- `mom` or `lat`. -/
def readBehaviour : List Char → Option Behaviour
  | ['m', 'o', 'm'] => some .momentary
  | ['l', 'a', 't'] => some .latching
  | _ => none

/-- The bytes two hexadecimal digits at a time, in the order written, put before `acc` one by one, so that the byte
written last comes first. -/
def readBytes : List Char → Snapshot → Option Snapshot
  | [], acc => some acc
  | [_], _ => none
  | h :: l :: cs, acc =>
    match hexDigit h, hexDigit l with
    | some a, some b => readBytes cs (BitVec.ofNat 8 (16 * a + b) :: acc)
    | _, _ => none

/-- `<snap>`: a hexadecimal literal of exactly `S` bytes, byte 0 written last. -/
def readSnap (nbytes : Nat) : List Char → Option Snapshot
  | '0' :: 'x' :: cs =>
    match readBytes cs [] with
    | some x => if x.length = nbytes then some x else none
    | none => none
  | _ => none

/-- The tokens of a text, `cur` being the characters of the token begun, last one first. -/
def tokens : List Char → List Char → List (List Char)
  | [], [] => []
  | [], c :: cur => [(c :: cur).reverse]
  | ch :: cs, cur =>
    if ch = ' ' ∨ ch = '\t' ∨ ch = ',' then
      let rest := if ch = ',' then [','] :: tokens cs [] else tokens cs []
      if cur = [] then rest else cur.reverse :: rest
    else tokens cs (ch :: cur)

/-- A command from its tokens. -/
def readCommand (nbytes : Nat) : List (List Char) → Option AsmCommand
  | [['r', 'b', '.', 'p', 'r', 'o', 'd', 'u', 'c', 'e'], x] => (readSnap nbytes x).map .produce
  | [['r', 'b', '.', 'c', 'o', 'n', 's', 'u', 'm', 'e']] => some .consume
  | [['b', 's', '.', 'g', 'e', 't', 'p'], i] => (readIndex i).map .getp
  | [['b', 's', '.', 's', 'e', 't', 'p'], i, [','], v] =>
    (readIndex i).bind fun i => (readBit v).map fun v => .setp i v
  | [['b', 's', '.', 'g', 'e', 't', 'l'], i] => (readIndex i).map .getl
  | [['b', 's', '.', 's', 'e', 't', 'l'], i, [','], v] =>
    (readIndex i).bind fun i => (readBit v).map fun v => .setl i v
  | [['b', 's', '.', 'r', 's', 't'], i] => (readIndex i).map .rst
  | [['b', 's', '.', 'e', 'd', 'g', 'e'], i, [','], v, [','], l] =>
    (readIndex i).bind fun i => (readBit v).bind fun v => (readBehaviour l).map fun l => .edge i v l
  | [['b', 's', '.', 'c', 'l', 'r', 'p'], i] => (readIndex i).map .clrp
  | [['b', 's', '.', 'c', 'l', 'r', 'l'], i] => (readIndex i).map .clrl
  | [['b', 's', '.', 'p', 'r', 'e', 's', 's'], i, [','], l] =>
    (readIndex i).bind fun i => (readBehaviour l).map fun l => .press i l
  | [['b', 's', '.', 'r', 'e', 'l', 'e', 'a', 's', 'e'], i, [','], l] =>
    (readIndex i).bind fun i => (readBehaviour l).map fun l => .release i l
  | _ => none

/-- A line, with or without `P:` or `M:` before its command. -/
def readLine (nbytes : Nat) (cs : List Char) : Option AsmLine :=
  match tokens cs [] with
  | ['P', ':'] :: ts => (readCommand nbytes ts).map fun c => { port := some .p, command := c }
  | ['M', ':'] :: ts => (readCommand nbytes ts).map fun c => { port := some .m, command := c }
  | ts => (readCommand nbytes ts).map fun c => { port := none, command := c }

end Sys2Proof.Machine
end

