-- ==== Sys2Proof/Safety.lean ====
section
/-! DEFINITION. The terms claims are stated in: the block's own state as one value (spec/10_state.md R20), good, faulted
and ended states (spec/70_reset_and_hazards.md R187, spec/60_exceptions.md R148), the invariant of the state
(spec/10_state.md R33, R37 to R39), and what a run accepts into the ring and returns from it (spec/40_ring_buffer.md R96,
R97, R101). -/

namespace Sys2Proof.Machine

/-! ## The block's state alone -/

/-- The nine elements of R20: the block's state, without the model's own fields. -/
structure Block where
  head : Nat
  tail : Nat
  count : Nat
  buf : Slots
  rdsnap : Option Snapshot
  pressed : BitSet
  latched : BitSet
  fault : BitVec 40
  events : List Event
deriving DecidableEq, Repr

/-- The block's state (R20). -/
def State.block (s : State) : Block :=
  { head := s.head, tail := s.tail, count := s.count, buf := s.buf, rdsnap := s.rdsnap, pressed := s.pressed,
    latched := s.latched, fault := s.fault, events := s.events }

/-! ## Replies and recorded faults -/

/-- The ports when port P is answered with `w` (R25, R80). -/
def pReply (s : State) (w : Word) : Ports :=
  { s.ports with pRsp := some w, mRsp := none, snapOut := none, dbr := none }

/-- The ports when port M is answered with `w`, with `x` on `M.SNAP_OUT` and `d` on `DBR` (R25, R80, R81). -/
def mReply (s : State) (w : Word) (x : Option Snapshot) (d : Option Nat) : Ports :=
  { s.ports with pRsp := none, mRsp := some w, snapOut := x, dbr := d }

/-- The ports when the command of a faulting or halted block is answered: 0x00000080 on its own port (R80, R144, R148). -/
def fltReply (s : State) : Ports :=
  match s.ports.active with
  | .p => pReply s 0x00000080
  | .m => mReply s 0x00000080 none none

/-- `f` is the value of `FAULT` that records `code`, the port and the word (R34, R144). -/
def Records (f : BitVec 40) (code : BitVec 3) (port : Port) (w : Word) : Prop :=
  faultValid f = true ∧ faultCode f = code ∧ faultPort f = decide (port = .p) ∧ faultReserved f = 0 ∧ faultCmd f = w

/-! ## Ends of runs (R187) -/

/-- No fault is recorded: `FAULT.VALID = 0`. A faulted state is never a good end (R148). -/
def Good (s : State) : Prop := halted s = false

/-- Both command streams are exhausted (R187). -/
def Ended (s : State) : Prop := s.pQueue = [] ∧ s.mQueue = []

/-- A run of `k` steps from `s` ends well: it never stops, both streams are exhausted, and no fault is recorded. -/
def RunsWell (k : Nat) (s : State) : Prop := ∃ t, Sys2Proof.core.run k s = .next t ∧ Ended t ∧ Good t

/-! ## The invariant -/

/-- The slots of the live snapshots, oldest first (R39). -/
def liveSlots (s : State) : List Nat := (List.range s.count).map fun j => (s.tail + 1 + j) % s.params.D

/-- The live snapshots, oldest first (R39); `none` would be an `UNSPEC` slot. -/
def live (s : State) : List (Option Snapshot) := (liveSlots s).map (Slots.read s.buf)

/-- The values `FAULT` may hold: 0, or `VALID` with a code of 1 to 5 and the reserved bits 0 (R34). -/
def FaultLegal (f : BitVec 40) : Prop :=
  f = 0 ∨ (faultValid f = true ∧ 1 ≤ (faultCode f).toNat ∧ (faultCode f).toNat ≤ 5 ∧ faultReserved f = 0)

/-- What every state reachable from reset satisfies. -/
structure StateInv (s : State) : Prop where
  /-- `HEAD` is in `0 .. D-1` (R20, R100). -/
  head_lt : s.head < s.params.D
  /-- `TAIL` is in `0 .. D-1` (R20, R100). -/
  tail_lt : s.tail < s.params.D
  /-- `0 <= COUNT <= D` (R37). -/
  count_le : s.count ≤ s.params.D
  /-- `HEAD == (TAIL + COUNT) mod D` (R38). -/
  cursors : s.head = (s.tail + s.count) % s.params.D
  /-- The ring's storage is in canonical form. -/
  buf_wf : Slots.wf s.buf
  /-- `BUF` has the slots `0 .. D-1`, of `S` bytes each (R29). -/
  buf_slots : ∀ c ∈ s.buf, c.1 < s.params.D ∧ c.2.length = s.params.S
  /-- Every live slot holds a snapshot (R39). -/
  live_written : ∀ k ∈ liveSlots s, (Slots.read s.buf k).isSome = true
  /-- `RDSNAP` has `S` bytes (R30). -/
  rdsnap_width : ∀ x, s.rdsnap = some x → x.length = s.params.S
  /-- The storage of `PRESSED` is in canonical form. -/
  pressed_wf : Memory.wf s.pressed
  /-- The storage of `LATCHED` is in canonical form. -/
  latched_wf : Memory.wf s.latched
  /-- The padding bits of `PRESSED` are 0 (R33). -/
  pressed_padding : ∀ i, s.params.N ≤ i → bitGet s.pressed i = false
  /-- The padding bits of `LATCHED` are 0 (R33). -/
  latched_padding : ∀ i, s.params.N ≤ i → bitGet s.latched i = false
  /-- `FAULT` holds a legal value (R34). -/
  fault_legal : FaultLegal s.fault
  /-- Every event names a logical index (R35). -/
  events_index : ∀ i, Event.dbr i ∈ s.events → i < s.params.N
  /-- `P.SNAP_IN` carries `S` bytes when port P is served (R25, R79). -/
  snapIn_width : s.ports.active = .p → s.ports.snapIn.length = s.params.S
  /-- Agent P presents `S` bytes on `P.SNAP_IN` with every command to come (R25, R79). -/
  pQueue_width : ∀ c ∈ s.pQueue, c.snapIn.length = s.params.S

/-! ## Runs -/

/-- The start of a run: the reset state of a build, with the commands the two agents will present and the order they are
served in (R177, R187). -/
def State.start (cfg : Params) (pq : List PCommand) (mq : List Word) (ts : List Turn) : State :=
  { State.resetFor cfg with pQueue := pq, mQueue := mq, turns := ts }

/-- The next state of a step; a step that stopped would leave the state where it is. -/
def nextState (s : State) : State :=
  match step s with
  | .next t => t
  | .fault _ => s
  | .refused _ => s

/-- The state after `k` steps. -/
def after : Nat → State → State
  | 0, s => s
  | k + 1, s => after k (nextState s)

/-- The snapshot a step accepts into the ring: that of an `RB_PRODUCE` that is not ignored, not faulted and not dropped
(R91, R97). -/
def acceptedAt (s : State) : Option Snapshot :=
  match arrival s with
  | (.idle, _) => none
  | (.reset, _) => none
  | (.command, t) =>
    match fetch t with
    | .ok .rbProduce => if halted t || full t then none else some (snapOperand t)
    | _ => none

/-- The snapshots accepted in `k` steps from `s`, in order (R96). -/
def acceptedIn : Nat → State → List Snapshot
  | 0, _ => []
  | k + 1, s => (acceptedAt s).toList ++ acceptedIn k (nextState s)

/-- The snapshots returned on `M.SNAP_OUT` in `k` steps from `s`, in order (R81, R96). -/
def returnedIn : Nat → State → List Snapshot
  | 0, _ => []
  | k + 1, s => (nextState s).ports.snapOut.toList ++ returnedIn k (nextState s)

/-- The state an instruction gives; one that stopped would leave the state where it is. -/
def execState (i : Instr) (s : State) : State :=
  match exec i s with
  | .next t => t
  | .fault _ => s
  | .refused _ => s

end Sys2Proof.Machine
end

