-- ==== Sys2Proof/Certificates/Slice0/Obligations.lean ====
section
/-! DEFINITION. The statements for the provers. The commands the two agents will present and the order in which the block
serves them are data of the state, `pQueue`, `mQueue` and `turns` (notes/assumptions/2.md); a statement for every `turns`
is one for every interleaving of R59. -/

open Sys2Proof Sys2Proof.Machine

/-! ## Encoding -/

/-- Decoding the word of a well-formed instruction, on the port it is legal on, gives the instruction back, with every
operand at every value (R71, R72, R74, R78). -/
def Obligations.DecodeOfEncodeIsTheInstruction : Prop :=
  ∀ (n : Nat) (i : Instr), WellFormed n i → decode n i.op.port (encode i) = .ok i

/-- A word that decodes is the word of the instruction it decodes to, on that instruction's port, and the instruction is
well formed: no two words stand for one instruction, and no bit is ignored (R71, R73, R76, R78). -/
def Obligations.EncodeOfDecodeIsTheWord : Prop :=
  ∀ (n : Nat) (port : Port) (w : Word) (i : Instr), decode n port w = .ok i →
    encode i = w ∧ i.op.port = port ∧ WellFormed n i

/-- The decoder of R78, read line by line from its pseudocode over the bits of the word. -/
def Obligations.DecoderFollowsItsPseudocode : Prop :=
  ∀ (n : Nat) (port : Port) (w : Word),
    let op := (w.extractLsb' 0 4).toNat
    let i := (w.extractLsb' 8 16).toNat
    if op = 0 ∨ op ≥ 9 then decode n port w = .error .illegalOp
    else if ¬(op = 1 ↔ port = .p) then decode n port w = .error .wrongPort
    else if w.extractLsb' 24 8 ≠ 0 ∨ w.extractLsb' 6 2 ≠ 0 then decode n port w = .error .reserved
    else if op ∈ [1, 2] ∧ w.extractLsb' 4 20 ≠ 0 then decode n port w = .error .reserved
    else if op ∈ [3, 5, 7] ∧ w.extractLsb' 4 2 ≠ 0 then decode n port w = .error .reserved
    else if op ∈ [4, 6] ∧ w.extractLsb' 5 1 ≠ 0 then decode n port w = .error .reserved
    else if op ≥ 3 ∧ i ≥ n then decode n port w = .error .index
    else ∃ o : Op, o.code = w.extractLsb' 0 4 ∧
      decode n port w = .ok (o.instr (w.extractLsb' 8 16) (w.getLsbD 4)
        (if w.getLsbD 5 then .latching else .momentary))

/-- Every word selects exactly one row of the opcode map and decodes to that row's operation, or selects none and is
refused with fault code 1 or 3. The spec marks R77, which says so, as its own inference from R73 to R76. -/
def Obligations.EveryWordSelectsOneRowOrFaults : Prop :=
  ∀ w : Word,
    (∃ r ∈ rows, r.selects w = true ∧ (∀ q ∈ rows, q.selects w = true → q = r) ∧
      ∃ i, decode 65536 r.op.port w = .ok i ∧ i.op = r.op) ∨
    ((∀ r ∈ rows, r.selects w = false) ∧
      (decode 65536 (homePort w) w = .error .illegalOp ∨ decode 65536 (homePort w) w = .error .reserved))

/-- Words written out from R71 and R74 decode to the instructions they stand for. -/
def Obligations.SampleWordsDecode : Prop :=
  decode 16 .p 0x00000001 = .ok .rbProduce ∧
  decode 16 .m 0x00000002 = .ok .rbConsume ∧
  decode 16 .m 0x00000514 = .ok (.bsSetPressed 5 true) ∧
  decode 16 .m 0x00000307 = .ok (.bsResetIndex 3) ∧
  decode 65536 .m 0x00FFFF38 = .ok (.bsEdge 65535 true .latching)

/-- The words of the assembler's commands, as the formulas of R82's table. -/
def Obligations.AssembledWordsFollowTheTable : Prop :=
  ∀ (port : Option Port) (x : Snapshot) (i : BitVec 16) (v : Bool),
    let at8 : Word := i.setWidth 32 <<< 8
    let at4 : Word := (BitVec.ofBool v).setWidth 32 <<< 4
    (assemble ⟨port, .produce x⟩).word = 0x00000001 ∧
    (assemble ⟨port, .consume⟩).word = 0x00000002 ∧
    (assemble ⟨port, .getp i⟩).word = at8 ||| 0x03 ∧
    (assemble ⟨port, .setp i v⟩).word = at8 ||| at4 ||| 0x04 ∧
    (assemble ⟨port, .getl i⟩).word = at8 ||| 0x05 ∧
    (assemble ⟨port, .setl i v⟩).word = at8 ||| at4 ||| 0x06 ∧
    (assemble ⟨port, .rst i⟩).word = at8 ||| 0x07 ∧
    (assemble ⟨port, .edge i v .momentary⟩).word = at8 ||| at4 ||| 0x08 ∧
    (assemble ⟨port, .edge i v .latching⟩).word = at8 ||| 0x20 ||| at4 ||| 0x08

/-- The pseudo-instructions assemble as their expansions (R83). -/
def Obligations.PseudoInstructionsExpand : Prop :=
  ∀ (port : Option Port) (i : BitVec 16) (l : Behaviour),
    assemble ⟨port, .clrp i⟩ = assemble ⟨port, .setp i false⟩ ∧
    assemble ⟨port, .clrl i⟩ = assemble ⟨port, .setl i false⟩ ∧
    assemble ⟨port, .press i l⟩ = assemble ⟨port, .edge i true l⟩ ∧
    assemble ⟨port, .release i l⟩ = assemble ⟨port, .edge i false l⟩

/-! ## The step -/

/-- When the command on the active port decodes to an instruction, the step is that instruction, on the state in which
the turn is taken and the command stands on its port; nothing is added around it (R147). In a halted block R147 executes
nothing; that the equality holds there too rests on the model's reading that an instruction makes the halt check itself
(notes/assumptions/8.md). -/
def Obligations.StepRunsTheDecodedInstruction : Prop :=
  ∀ (s t : State) (i : Instr), arrival s = (.command, t) →
    decode t.params.N t.ports.active t.ports.cmd = .ok i → step s = exec i t

/-- Every step answers a next state and takes the next turn, if one is left: no command waits, retries or blocks (R62,
R183). R62 and R183 speak of commands. That a step with no turn left, or with a turn whose stream is exhausted, also
answers a next state is the model's choice (notes/assumptions/3.md), and so are the turns themselves
(notes/assumptions/2.md) and the one turn the host's reset takes (notes/assumptions/10.md). -/
def Obligations.EveryStepCompletesInOneTurn : Prop :=
  ∀ s : State, ∃ t, step s = .next t ∧ t.turns = s.turns.tail

/-- The commands of one port take effect in the order the port presents them (R59): in a turn of a port the command served
is the first of that port's stream, its word (and for P its snapshot) on that port, with the block's state as it was; the
step is the command step on it, and leaves that stream without this command and the other stream as it was. That a turn
whose stream is exhausted serves no command, and that the host's reset takes none, is the model's choice
(notes/assumptions/3.md, notes/assumptions/10.md). -/
def Obligations.PortsKeepTheirCommandOrder : Prop :=
  ∀ s t : State, step s = .next t →
    (∀ ts c cs, s.turns = .port .p :: ts → s.pQueue = c :: cs →
      (∃ u, arrival s = (.command, u) ∧ u.ports.active = .p ∧ u.ports.cmd = c.cmd ∧ u.ports.snapIn = c.snapIn ∧
        u.block = s.block ∧ u.params = s.params ∧ commandStep u = .next t) ∧
      t.pQueue = cs ∧ t.mQueue = s.mQueue ∧ t.turns = ts) ∧
    (∀ ts w ws, s.turns = .port .m :: ts → s.mQueue = w :: ws →
      (∃ u, arrival s = (.command, u) ∧ u.ports.active = .m ∧ u.ports.cmd = w ∧
        u.block = s.block ∧ u.params = s.params ∧ commandStep u = .next t) ∧
      t.mQueue = ws ∧ t.pQueue = s.pQueue ∧ t.turns = ts) ∧
    (∀ ts, s.turns = .port .p :: ts → t.pQueue = s.pQueue.tail ∧ t.mQueue = s.mQueue) ∧
    (∀ ts, s.turns = .port .m :: ts → t.mQueue = s.mQueue.tail ∧ t.pQueue = s.pQueue) ∧
    (∀ ts, s.turns = .reset :: ts → t.pQueue = s.pQueue ∧ t.mQueue = s.mQueue)

/-- A step in which no command is presented changes no state of the block and drives nothing. The model's choice
(notes/assumptions/3.md): the spec has no such step. -/
def Obligations.StepWithoutCommandIsIdle : Prop :=
  ∀ s t : State, arrival s = (.idle, t) →
    step s = .next { t with ports := { t.ports with pRsp := none, mRsp := none, snapOut := none, dbr := none } } ∧
    t.block = s.block

/-- The parameters do not change while the block runs (R175). -/
def Obligations.ParametersNeverChange : Prop :=
  ∀ s t : State, step s = .next t → t.params = s.params

/-! ## Faults, halt and reset -/

/-- A command that faults in decoding takes the fault entry: `FAULT` records code, port and word, the response on its own
port is 0x00000080, and nothing else of the block changes (R142, R144, R147). -/
def Obligations.DecodeFaultIsTaken : Prop :=
  ∀ (s t : State) (c : Fault), arrival s = (.command, t) → halted t = false → fetch t = .error c →
    t.block = s.block ∧
    ∃ f, step s = .next { t with fault := f, ports := fltReply t } ∧ Records f c.code t.ports.active t.ports.cmd

/-- However a step comes to halt a block that was not halted, it is the entry of R144: a command on a port recorded its
fault, answered 0x00000080, and left everything else of the block as it was before the step. -/
def Obligations.FaultEntryChangesOnlyFault : Prop :=
  ∀ s u : State, halted s = false → step s = .next u → halted u = true →
    ∃ t f c, arrival s = (.command, t) ∧ t.block = s.block ∧ u = { t with fault := f, ports := fltReply t } ∧
      1 ≤ c.toNat ∧ c.toNat ≤ 5 ∧ Records f c t.ports.active t.ports.cmd

/-- `OP` values 0x0 and 0x9 to 0xF fault with code 1 on either port, the all-zero word among them (R75). -/
def Obligations.UnassignedOperationsFault : Prop :=
  (∀ s t : State, arrival s = (.command, t) → halted t = false →
    (t.ports.cmd.extractLsb' 0 4 = 0 ∨ (t.ports.cmd.extractLsb' 0 4).toNat ≥ 9) →
    t.block = s.block ∧ ∃ f, step s = .next { t with fault := f, ports := fltReply t } ∧ Records f 1 t.ports.active t.ports.cmd) ∧
  (0x00000000 : Word).extractLsb' 0 4 = 0

/-- Once `FAULT.VALID` is 1, a command on either port changes no state, writes nothing to `FAULT`, gets the response
0x00000080, and leaves a state that is no good end (R148). -/
def Obligations.HaltedBlockIgnoresCommands : Prop :=
  ∀ s t : State, halted s = true → arrival s = (.command, t) →
    step s = .next { t with ports := fltReply t } ∧ t.block = s.block ∧
    halted { t with ports := fltReply t } = true ∧ ¬ Good { t with ports := fltReply t }

/-- An instruction executed in a halted block is ignored, whichever it is (R148). That an instruction makes this check
itself, beside the command step, is the model's reading (notes/assumptions/8.md). -/
def Obligations.HaltedBlockIgnoresEveryInstruction : Prop :=
  ∀ (i : Instr) (s : State), halted s = true → exec i s = .next { s with ports := fltReply s }

/-- Nothing but the global reset ends a halt: in any number of steps without it, the block stays as it is (R148, R149). -/
def Obligations.OnlyResetEndsAHalt : Prop :=
  ∀ (k : Nat) (s : State), halted s = true → .reset ∉ s.turns → (after k s).block = s.block ∧ ¬ Good (after k s)

/-- A run without resets that ends without a fault never had one (R148, R187). -/
def Obligations.GoodEndMeansNoFaultBefore : Prop :=
  ∀ (k j : Nat) (s : State), .reset ∉ s.turns → Good (after k s) → j ≤ k → Good (after j s)

/-- The global reset: every element at its reset value, `EVENTS` empty, no `DBR` event and no response (R171). -/
def Obligations.GlobalResetTakesOneStep : Prop :=
  ∀ (s : State) (ts : List Turn), s.turns = .reset :: ts →
    ∃ t, step s = .next t ∧ t.head = 0 ∧ t.tail = 0 ∧ t.count = 0 ∧ (∀ k, Slots.read t.buf k = none) ∧ t.rdsnap = none ∧
      (∀ i, bitGet t.pressed i = false) ∧ (∀ i, bitGet t.latched i = false) ∧ t.fault = 0 ∧ t.events = [] ∧
      t.ports.pRsp = none ∧ t.ports.mRsp = none ∧ t.ports.snapOut = none ∧ t.ports.dbr = none

/-- The state right after reset of every build, `State.reset` among them, has the values of R40. -/
def Obligations.ResetStateHasTheListedValues : Prop :=
  (∀ cfg : Params,
    let s := State.resetFor cfg
    s.head = 0 ∧ s.tail = 0 ∧ s.count = 0 ∧ (∀ k, Slots.read s.buf k = none) ∧ s.rdsnap = none ∧
    (∀ i, bitGet s.pressed i = false) ∧ (∀ i, bitGet s.latched i = false) ∧ s.fault = 0 ∧ s.events = []) ∧
  ∃ cfg, State.reset = State.resetFor cfg

/-- The bits of a recorded fault are those of R34's layout: `CMD << 8 | PORT << 4 | CODE << 1 | VALID`. -/
def Obligations.FaultRegisterLayout : Prop :=
  ∀ (c : Fault) (port : Port) (w : Word),
    (packFault c port w).toNat = w.toNat * 256 + (if port = .p then 16 else 0) + c.code.toNat * 2 + 1

/-- The bits of a response word are those of R80's layout. -/
def Obligations.ResponseWordLayout : Prop :=
  ∀ r : Response, r.word.toNat = r.present.toNat + 2 * r.bit.toNat + 4 * r.edge.toNat + 8 * r.send.toNat +
    16 * r.eff.toNat + 128 * r.flt.toNat

/-! ## Ports and indices -/

/-- On the port that may not issue it, an instruction takes fault code 2 and has no other effect (R111, R143, R144). That
an instruction makes this check itself, beside the decoder, is the model's reading (notes/assumptions/8.md). -/
def Obligations.WrongPortFaults : Prop :=
  ∀ (i : Instr) (s : State), halted s = false → s.ports.active ≠ i.op.port →
    ∃ f, exec i s = .next { s with fault := f, ports := fltReply s } ∧ Records f 2 s.ports.active s.ports.cmd

/-- Which words are refused on which port: `RB_PRODUCE` is legal on P only, every other operation on M only (R143, R153);
the check comes before those of the reserved bits and of the index (R146). -/
def Obligations.WordOnTheWrongPortFaults : Prop :=
  ∀ s t : State, arrival s = (.command, t) → halted t = false →
    1 ≤ (t.ports.cmd.extractLsb' 0 4).toNat → (t.ports.cmd.extractLsb' 0 4).toNat ≤ 8 →
    ¬ (t.ports.cmd.extractLsb' 0 4 = 1 ↔ t.ports.active = .p) →
    t.block = s.block ∧ ∃ f, step s = .next { t with fault := f, ports := fltReply t } ∧ Records f 2 t.ports.active t.ports.cmd

/-- A `BS_` instruction with an index `i >= N` takes fault code 4 and has no other effect (R110, R144). That an
instruction makes this check itself, beside the decoder, is the model's reading (notes/assumptions/8.md). -/
def Obligations.IndexOutOfRangeFaults : Prop :=
  ∀ (i : Instr) (k : Nat) (s : State), i.index? = some k → halted s = false → s.ports.active = .m →
    s.params.N ≤ k →
    ∃ f, exec i s = .next { s with fault := f, ports := fltReply s } ∧ Records f 4 s.ports.active s.ports.cmd

/-! ## The ring -/

/-- An `RB_PRODUCE` into a ring that is not full advances `HEAD` with wrap, writes the slot the new `HEAD` names and no
other, counts, answers 0x00000000, and changes nothing else (R90, R100, R178). -/
def Obligations.ProduceStoresTheSnapshot : Prop :=
  ∀ s : State, halted s = false → s.ports.active = .p → s.count ≠ s.params.D →
    ∃ b, exec .rbProduce s = .next { s with head := (s.head + 1) % s.params.D, buf := b, count := s.count + 1,
                                            ports := pReply s 0x00000000 } ∧
      Slots.read b ((s.head + 1) % s.params.D) = some s.ports.snapIn ∧
      ∀ k, k ≠ (s.head + 1) % s.params.D → Slots.read b k = Slots.read s.buf k

/-- An `RB_PRODUCE` into a full ring changes nothing and answers 0x00000000 (R91). -/
def Obligations.ProduceIntoFullRingDrops : Prop :=
  ∀ s : State, halted s = false → s.ports.active = .p → s.count = s.params.D →
    exec .rbProduce s = .next { s with ports := pReply s 0x00000000 }

/-- An `RB_CONSUME` from a ring that is not empty advances `TAIL` with wrap, copies the slot the new `TAIL` names to
`RDSNAP` and `M.SNAP_OUT`, uncounts, answers 0x00000001, and changes nothing else (R81, R93, R100). -/
def Obligations.ConsumeReturnsTheOldestSnapshot : Prop :=
  ∀ (s : State) (x : Snapshot), halted s = false → s.ports.active = .m → s.count ≠ 0 →
    Slots.read s.buf ((s.tail + 1) % s.params.D) = some x →
    exec .rbConsume s = .next { s with tail := (s.tail + 1) % s.params.D, rdsnap := some x, count := s.count - 1,
                                       ports := mReply s 0x00000001 (some x) none }

/-- An `RB_CONSUME` from an empty ring returns nothing and changes nothing (R94). -/
def Obligations.ConsumeFromEmptyRingReturnsNothing : Prop :=
  ∀ s : State, halted s = false → s.ports.active = .m → s.count = 0 →
    exec .rbConsume s = .next { s with ports := mReply s 0x00000000 none none }

/-- An `RB_CONSUME` whose slot holds `UNSPEC` takes fault code 5 and has no other effect: the cursor and the count stay
(R14, R93, R144). -/
def Obligations.ConsumeOfUnwrittenSlotFaults : Prop :=
  ∀ s : State, halted s = false → s.ports.active = .m → s.count ≠ 0 →
    Slots.read s.buf ((s.tail + 1) % s.params.D) = none →
    ∃ f, exec .rbConsume s = .next { s with fault := f, ports := fltReply s } ∧ Records f 5 .m s.ports.cmd

/-- The live snapshots are a queue: an accepted produce puts its snapshot at the end, a successful consume takes the
first one and returns it (R90, R93; the list is the one of R39, which the spec marks as its own inference). -/
def Obligations.RingIsAQueue : Prop :=
  ∀ s t : State, StateInv s → halted s = false →
    (s.ports.active = .p → s.count ≠ s.params.D → exec .rbProduce s = .next t →
      live t = live s ++ [some s.ports.snapIn]) ∧
    (s.ports.active = .m → s.count ≠ 0 → exec .rbConsume s = .next t →
      ∃ x, live s = some x :: live t ∧ t.ports.snapOut = some x ∧ t.rdsnap = some x)

/-- FIFO order over any run from reset, for every order of the two ports' commands: the accepted snapshots are the
returned ones followed by those still live, in order, each exactly once (R90, R93, R40, R59; the spec marks R96, which
says so, as its own inference). -/
def Obligations.ConsumerReceivesAcceptedSnapshotsInOrder : Prop :=
  ∀ (cfg : Params) (pq : List PCommand) (mq : List Word) (ts : List Turn) (k : Nat), .reset ∉ ts →
    (acceptedIn k (State.start cfg pq mq ts)).map some =
      (returnedIn k (State.start cfg pq mq ts)).map some ++ live (after k (State.start cfg pq mq ts))

/-- After any run from reset `COUNT` is the number of accepted produces less the number of successful consumes (R90, R93;
the spec marks R101, which says so, as its own inference). -/
def Obligations.CountIsAcceptedLessReturned : Prop :=
  ∀ (cfg : Params) (pq : List PCommand) (mq : List Word) (ts : List Turn) (k : Nat), .reset ∉ ts →
    (acceptedIn k (State.start cfg pq mq ts)).length =
      (returnedIn k (State.start cfg pq mq ts)).length + (after k (State.start cfg pq mq ts)).count

/-- In every state of every run from reset, host resets included, `COUNT` is at most `D` (R37). -/
def Obligations.CountNeverExceedsDepth : Prop :=
  ∀ (cfg : Params) (pq : List PCommand) (mq : List Word) (ts : List Turn) (k : Nat),
    0 ≤ (after k (State.start cfg pq mq ts)).count ∧
      (after k (State.start cfg pq mq ts)).count ≤ (after k (State.start cfg pq mq ts)).params.D ∧
      (after k (State.start cfg pq mq ts)).params = cfg

/-- No run from reset reads an `UNSPEC` slot: fault code 5 is never recorded (R40, R90, R93; the spec marks R98, which
says so, as its own inference). -/
def Obligations.NoRunReadsAnUnwrittenSlot : Prop :=
  ∀ (cfg : Params) (pq : List PCommand) (mq : List Word) (ts : List Turn) (k : Nat),
    faultCode (after k (State.start cfg pq mq ts)).fault ≠ 5

/-- With `D = 1` both cursors are always 0, the ring holds at most one snapshot, and only slot 0 is ever written (R90, R93,
R100; the spec marks R99, which says so, as its own inference). -/
def Obligations.RingOfDepthOne : Prop :=
  ∀ (cfg : Params) (pq : List PCommand) (mq : List Word) (ts : List Turn) (k : Nat), cfg.D = 1 →
    (after k (State.start cfg pq mq ts)).head = 0 ∧ (after k (State.start cfg pq mq ts)).tail = 0 ∧
    (after k (State.start cfg pq mq ts)).count ≤ 1 ∧
    ∀ j, j ≠ 0 → Slots.read (after k (State.start cfg pq mq ts)).buf j = none

/-- `RDSNAP` changes only at the global reset and at a consume that returns a snapshot on `M.SNAP_OUT`, and then holds
that snapshot; `M.SNAP_OUT` carries a value in no other step (R81, R93; the spec marks R95, which says so, as its own
inference). -/
def Obligations.ReadSnapshotChangesOnlyAtAConsume : Prop :=
  ∀ s t : State, step s = .next t →
    (t.ports.snapOut = none → t.rdsnap ≠ s.rdsnap → ∃ ts, s.turns = .reset :: ts) ∧
    (∀ x, t.ports.snapOut = some x → t.rdsnap = some x ∧ t.ports.mRsp = some 0x00000001 ∧
      ∃ u, arrival s = (.command, u) ∧ u.ports.active = .m ∧ fetch u = .ok .rbConsume ∧ u.count ≠ 0)

/-- A produce and a consume presented at once, in any state that satisfies the invariant and is not halted; both orders are
runs of the model (R59, R147). Empty ring: served P first, the consume returns the new snapshot; served M first, it
returns nothing and the snapshot stays. Full ring: served P first, the new snapshot is dropped; served M first, it is
stored; either way the oldest is returned. A ring neither empty nor full: the two orders leave the same block, the oldest
returned and the new snapshot stored. -/
def Obligations.BothOrdersOfASimultaneousPair : Prop :=
  ∀ (s : State) (x : Snapshot) (pq : List PCommand) (mq : List Word) (ts : List Turn),
    StateInv s → halted s = false →
    let both := { s with pQueue := ⟨0x00000001, x⟩ :: pq, mQueue := 0x00000002 :: mq }
    let pThenM := { both with turns := .port .p :: .port .m :: ts }
    let mThenP := { both with turns := .port .m :: .port .p :: ts }
    (s.count = 0 →
      (returnedIn 2 pThenM = [x] ∧ live (after 2 pThenM) = [] ∧ (after 2 pThenM).rdsnap = some x) ∧
      (returnedIn 2 mThenP = [] ∧ live (after 2 mThenP) = [some x] ∧ (after 2 mThenP).rdsnap = s.rdsnap)) ∧
    (s.count = s.params.D → ∃ y rest, live s = some y :: rest ∧
      (returnedIn 2 pThenM = [y] ∧ live (after 2 pThenM) = rest ∧ (after 2 pThenM).rdsnap = some y) ∧
      (returnedIn 2 mThenP = [y] ∧ live (after 2 mThenP) = rest ++ [some x] ∧ (after 2 mThenP).rdsnap = some y)) ∧
    (0 < s.count → s.count < s.params.D → ∃ y rest, live s = some y :: rest ∧
      returnedIn 2 pThenM = [y] ∧ returnedIn 2 mThenP = [y] ∧ live (after 2 pThenM) = rest ++ [some x] ∧
      (after 2 pThenM).rdsnap = some y ∧ (after 2 pThenM).block = (after 2 mThenP).block)

/-! ## The button file -/

/-- `BS_GET_PRESSED` answers the bit `pressed[i]` and changes nothing (R112). -/
def Obligations.GetPressedAnswersTheBit : Prop :=
  ∀ (idx : BitVec 16) (s : State), halted s = false → s.ports.active = .m → idx.toNat < s.params.N →
    exec (.bsGetPressed idx) s = .next { s with
      ports := mReply s (if bitGet s.pressed idx.toNat then 0x00000002 else 0x00000000) none none }

/-- `BS_GET_LATCHED` answers the bit `latched[i]` and changes nothing (R114). -/
def Obligations.GetLatchedAnswersTheBit : Prop :=
  ∀ (idx : BitVec 16) (s : State), halted s = false → s.ports.active = .m → idx.toNat < s.params.N →
    exec (.bsGetLatched idx) s = .next { s with
      ports := mReply s (if bitGet s.latched idx.toNat then 0x00000002 else 0x00000000) none none }

/-- `BS_SET_PRESSED` writes the one bit `pressed[i]`, which is bit `i mod 8` of byte `i div 8`, bit 0 least significant
(R52), and answers 0x00000000; every other bit, every other byte and all other state stay (R113, R126). -/
def Obligations.SetPressedWritesTheBit : Prop :=
  ∀ (idx : BitVec 16) (v : Bool) (s : State), halted s = false → s.ports.active = .m → idx.toNat < s.params.N →
    ∃ m, exec (.bsSetPressed idx v) s = .next { s with pressed := m, ports := mReply s 0x00000000 none none } ∧
      (Memory.read m (idx.toNat / 8)).getLsbD (idx.toNat % 8) = v ∧
      (∀ j, bitGet m j = if j = idx.toNat then v else bitGet s.pressed j) ∧
      ∀ a, a ≠ idx.toNat / 8 → Memory.read m a = Memory.read s.pressed a

/-- `BS_SET_LATCHED` writes the one bit `latched[i]`, which is bit `i mod 8` of byte `i div 8`, bit 0 least significant
(R52), and answers 0x00000000; every other bit, every other byte and all other state stay (R115, R126). -/
def Obligations.SetLatchedWritesTheBit : Prop :=
  ∀ (idx : BitVec 16) (v : Bool) (s : State), halted s = false → s.ports.active = .m → idx.toNat < s.params.N →
    ∃ m, exec (.bsSetLatched idx v) s = .next { s with latched := m, ports := mReply s 0x00000000 none none } ∧
      (Memory.read m (idx.toNat / 8)).getLsbD (idx.toNat % 8) = v ∧
      (∀ j, bitGet m j = if j = idx.toNat then v else bitGet s.latched j) ∧
      ∀ a, a ≠ idx.toNat / 8 → Memory.read m a = Memory.read s.latched a

/-- `BS_RESET_INDEX` clears both bits of `i`, appends `DBR(i)` to `EVENTS` and drives `i` on port `DBR`, whatever the bits
were, and answers 0x00000000; all else stays (R118). -/
def Obligations.ResetIndexClearsBothBits : Prop :=
  ∀ (idx : BitVec 16) (s : State), halted s = false → s.ports.active = .m → idx.toNat < s.params.N →
    ∃ m n, exec (.bsResetIndex idx) s = .next { s with pressed := m, latched := n,
                                                       events := s.events ++ [.dbr idx.toNat],
                                                       ports := mReply s 0x00000000 none (some idx.toNat) } ∧
      (∀ j, bitGet m j = if j = idx.toNat then false else bitGet s.pressed j) ∧
      (∀ j, bitGet n j = if j = idx.toNat then false else bitGet s.latched j) ∧
      ∀ a, a ≠ idx.toNat / 8 → Memory.read m a = Memory.read s.pressed a ∧ Memory.read n a = Memory.read s.latched a

/-- `BS_EDGE` with the state already held: no edge, nothing changes, answer 0x00000000 (R120, R141). -/
def Obligations.EdgeWithoutChangeDoesNothing : Prop :=
  ∀ (idx : BitVec 16) (v : Bool) (l : Behaviour) (s : State), halted s = false → s.ports.active = .m →
    idx.toNat < s.params.N → bitGet s.pressed idx.toNat = v →
    exec (.bsEdge idx v l) s = .next { s with ports := mReply s 0x00000000 none none }

/-- `BS_EDGE` on an edge records the new state in `pressed[i]`; a latching press inverts `latched[i]` and sends the new
latch value (0x1C or 0x0C), a latching release sends nothing (0x04), a momentary edge sends the new state (0x1C or 0x0C)
and keeps the latch; all else stays (R120). -/
def Obligations.EdgeRecordsAndToggles : Prop :=
  ∀ (idx : BitVec 16) (v : Bool) (l : Behaviour) (s : State), halted s = false → s.ports.active = .m →
    idx.toNat < s.params.N → bitGet s.pressed idx.toNat ≠ v →
    ∃ m n w, exec (.bsEdge idx v l) s = .next { s with pressed := m, latched := n,
                                                       ports := mReply s w none none } ∧
      (∀ j, bitGet m j = if j = idx.toNat then v else bitGet s.pressed j) ∧
      (∀ a, a ≠ idx.toNat / 8 → Memory.read m a = Memory.read s.pressed a) ∧
      (l = .latching → v = true →
        (∀ j, bitGet n j = if j = idx.toNat then !bitGet s.latched j else bitGet s.latched j) ∧
        (∀ a, a ≠ idx.toNat / 8 → Memory.read n a = Memory.read s.latched a) ∧
        w = if bitGet s.latched idx.toNat then 0x0000000C else 0x0000001C) ∧
      (l = .latching → v = false → n = s.latched ∧ w = 0x00000004) ∧
      (l = .momentary → n = s.latched ∧ w = if v then 0x0000001C else 0x0000000C)

/-- The same `BS_EDGE` twice in a row reports at most one edge: the second changes nothing and answers 0x00000000 (R120;
the spec marks R121, which says so, as its own inference). -/
def Obligations.SecondEqualEdgeIsANoOp : Prop :=
  ∀ (idx : BitVec 16) (v : Bool) (l k : Behaviour) (s t : State), halted s = false → s.ports.active = .m →
    idx.toNat < s.params.N → exec (.bsEdge idx v l) s = .next t →
    exec (.bsEdge idx v k) t = .next { t with ports := mReply t 0x00000000 none none }

/-- In whatever state and on whichever port it runs, `BS_EDGE` changes `latched[i]` only on a press edge with `L` = 1, and
then inverts it (R120; the spec marks R122, which says so, as its own inference). -/
def Obligations.LatchFlipsOnlyOnALatchingPress : Prop :=
  ∀ (idx : BitVec 16) (v : Bool) (l : Behaviour) (s t : State), exec (.bsEdge idx v l) s = .next t →
    (bitGet t.latched idx.toNat ≠ bitGet s.latched idx.toNat →
      bitGet s.pressed idx.toNat = false ∧ v = true ∧ l = .latching) ∧
    (halted s = false → s.ports.active = .m → idx.toNat < s.params.N → bitGet s.pressed idx.toNat = false →
      v = true → l = .latching → bitGet t.latched idx.toNat = !bitGet s.latched idx.toNat)

/-- Latch alternation: from a latch of 0 and no press held, the k-th latching press of an index, with the releases between
the presses, answers `EFF` = k mod 2, and every release answers 0x04 (R120; the spec marks R123, which says so, as its
own inference, and reads the source's sentence as 90_conflicts.md C1 resolves it). -/
def Obligations.LatchAlternatesOverPresses : Prop :=
  ∀ (idx : BitVec 16) (s : State) (k : Nat), halted s = false → s.ports.active = .m → idx.toNat < s.params.N →
    bitGet s.pressed idx.toNat = false → bitGet s.latched idx.toNat = false →
    let press := execState (.bsEdge idx true .latching)
    let release := execState (.bsEdge idx false .latching)
    let before := (fun t => release (press t))^[k] s
    (press before).ports.mRsp = some (if (k + 1) % 2 = 1 then 0x0000001C else 0x0000000C) ∧
    (release (press before)).ports.mRsp = some 0x00000004

/-- The direct writes are idempotent on a bit-set in canonical form: writing the same bit again leaves the whole state as
the first write left it; a repeated per-index reset adds one more `DBR` event and changes nothing else of the block (R113,
R115, R118; the spec marks R56, which says so, as its own inference). -/
def Obligations.DirectWritesAreIdempotent : Prop :=
  ∀ (idx : BitVec 16) (v : Bool) (s : State), Memory.wf s.pressed → Memory.wf s.latched →
    (let t := execState (.bsSetPressed idx v) s; exec (.bsSetPressed idx v) t = .next t) ∧
    (let t := execState (.bsSetLatched idx v) s; exec (.bsSetLatched idx v) t = .next t) ∧
    (let t := execState (.bsResetIndex idx) s
     halted t = false → exec (.bsResetIndex idx) t = .next { t with events := t.events ++ [.dbr idx.toNat] })

/-- An instruction on index `i` changes at most `pressed[i]` and `latched[i]`: every other index's bits, and every other
byte, stay, and the two bit-sets are separate storage (R52, R113, R115, R118, R120; the spec marks R116, which says so,
as its own inference). -/
def Obligations.OnlyTheNamedIndexChanges : Prop :=
  ∀ (i : Instr) (k : Nat) (s t : State), i.index? = some k → exec i s = .next t →
    (∀ j, j ≠ k → bitGet t.pressed j = bitGet s.pressed j ∧ bitGet t.latched j = bitGet s.latched j) ∧
    (∀ a, a ≠ k / 8 →
      Memory.read t.pressed a = Memory.read s.pressed a ∧ Memory.read t.latched a = Memory.read s.latched a) ∧
    (i.op = .bsSetPressed → t.latched = s.latched) ∧ (i.op = .bsSetLatched → t.pressed = s.pressed)

/-! ## The whole machine -/

/-- Every step keeps the invariant, from every state that satisfies it (R20, R33, R34, R37 to R39). -/
def Obligations.EveryStepKeepsTheInvariant : Prop :=
  ∀ s t : State, StateInv s → step s = .next t → StateInv t

/-- The reset state of every build satisfies the invariant, whatever commands the agents will present, if every snapshot
presented has `S` bytes. -/
def Obligations.InvariantHoldsAtReset : Prop :=
  (∀ (cfg : Params) (pq : List PCommand) (mq : List Word) (ts : List Turn), (∀ c ∈ pq, c.snapIn.length = cfg.S) →
    StateInv (State.start cfg pq mq ts)) ∧ StateInv State.reset

/-- Which instruction writes which state: the table of R36. What the table does not list stays. -/
def Obligations.InstructionsWriteOnlyTheirState : Prop :=
  ∀ (i : Instr) (s t : State), exec i s = .next t →
    (t.head ≠ s.head ∨ t.buf ≠ s.buf → i.op = .rbProduce) ∧
    (t.tail ≠ s.tail ∨ t.rdsnap ≠ s.rdsnap → i.op = .rbConsume) ∧
    (t.count ≠ s.count → i.op = .rbProduce ∨ i.op = .rbConsume) ∧
    (t.pressed ≠ s.pressed → i.op = .bsSetPressed ∨ i.op = .bsResetIndex ∨ i.op = .bsEdge) ∧
    (t.latched ≠ s.latched → i.op = .bsSetLatched ∨ i.op = .bsResetIndex ∨ i.op = .bsEdge) ∧
    (t.events ≠ s.events → i.op = .bsResetIndex) ∧
    t.params = s.params ∧ t.pQueue = s.pQueue ∧ t.mQueue = s.mQueue ∧ t.turns = s.turns

/-- What a port can never change, whatever word it presents: P none of `TAIL`, `RDSNAP`, the button file and `EVENTS`, M
neither `HEAD` nor a slot (R36, R63, R153, R182). -/
def Obligations.PortsTouchOnlyTheirState : Prop :=
  ∀ s t u : State, arrival s = (.command, u) → step s = .next t →
    (u.ports.active = .p → t.tail = s.tail ∧ t.rdsnap = s.rdsnap ∧ t.pressed = s.pressed ∧ t.latched = s.latched ∧
      t.events = s.events) ∧
    (u.ports.active = .m → t.head = s.head ∧ t.buf = s.buf)

/-- `EVENTS` is only appended to: a step that is not the global reset adds the event driven on port `DBR` in that step, or
nothing (R35, R118). -/
def Obligations.EventsAreOnlyAppended : Prop :=
  ∀ s t : State, step s = .next t → (∀ ts, s.turns ≠ .reset :: ts) →
    t.events = s.events ++ t.ports.dbr.toList.map Event.dbr

/-- A produce and a button command do not see each other: a legal `RB_PRODUCE` word on P and a legal `BS_` word on M leave
the same block in either order (R59, R63; the spec marks R60, which says that each command reads what those before it
left, as its own inference). -/
def Obligations.ProduceAndButtonCommandsCommute : Prop :=
  ∀ (s : State) (x : Snapshot) (w : Word) (i : Instr) (ts : List Turn) (pq : List PCommand) (mq : List Word) (k : Nat),
    halted s = false → decode s.params.N .m w = .ok i → i.index? = some k →
    let start := { s with pQueue := ⟨0x00000001, x⟩ :: pq, mQueue := w :: mq }
    (after 2 { start with turns := .port .p :: .port .m :: ts }).block =
      (after 2 { start with turns := .port .m :: .port .p :: ts }).block

/-- The derived widths hold the ranges of the cursors and of `COUNT`, and no narrower width does (R9, R20). -/
def Obligations.WidthsHoldTheirRanges : Prop :=
  ∀ cfg : Params,
    cfg.D ≤ 2 ^ cfg.CW ∧ cfg.D + 1 ≤ 2 ^ cfg.KW ∧ (1 < cfg.CW → 2 ^ (cfg.CW - 1) < cfg.D) ∧
    (1 < cfg.KW → 2 ^ (cfg.KW - 1) < cfg.D + 1) ∧ 1 ≤ cfg.CW ∧ 1 ≤ cfg.KW ∧
    cfg.N ≤ 8 * cfg.NBY ∧ 8 * cfg.NBY < cfg.N + 8 ∧ cfg.N ≤ 2 ^ cfg.IW

/-- What one step does to the ring as a queue, from every state that satisfies the invariant: unless it is the global
reset, the live snapshots before it, then the one it accepts, are the one it returns on `M.SNAP_OUT`, then the live
snapshots after it (R90, R91, R93, R94; the spec marks R39 and R96, from which the list and its order are taken, as its
own inferences). -/
def Obligations.EveryStepKeepsTheQueue : Prop :=
  ∀ s t : State, StateInv s → step s = .next t → (∀ ts, s.turns ≠ .reset :: ts) →
    live s ++ (acceptedAt s).toList.map some = t.ports.snapOut.toList.map some ++ live t
end

