-- ==== Sys2Proof/Laws/Decode.lean ====
section
/-! SUPPORT. The laws of the word's fields (spec/30_encoding.md R71): what each field of a packed word reads, a word is
the packing of its fields, and `OP` values and operations stand for each other. -/

namespace Sys2Proof

theorem fieldOP_packWord (idx l v op) : fieldOP (packWord idx l v op) = op := by
  refine BitVec.eq_of_getLsbD_eq fun k hk => ?_
  simp only [fieldOP, packWord, BitVec.getLsbD_extractLsb', BitVec.getLsbD_append]
  simp [hk]

theorem fieldV_packWord (idx l v op) : fieldV (packWord idx l v op) = v := by
  simp only [fieldV, packWord, BitVec.getLsbD_append]
  simp

theorem fieldL_packWord (idx l v op) : fieldL (packWord idx l v op) = l := by
  simp only [fieldL, packWord, BitVec.getLsbD_append]
  simp

theorem fieldRSVL_packWord (idx l v op) : fieldRSVL (packWord idx l v op) = 0 := by
  refine BitVec.eq_of_getLsbD_eq fun k hk => ?_
  simp only [fieldRSVL, packWord, BitVec.getLsbD_extractLsb', BitVec.getLsbD_append]
  interval_cases k <;> simp

theorem fieldIDX_packWord (idx l v op) : fieldIDX (packWord idx l v op) = idx := by
  refine BitVec.eq_of_getLsbD_eq fun k hk => ?_
  simp only [fieldIDX, packWord, BitVec.getLsbD_extractLsb', BitVec.getLsbD_append]
  interval_cases k <;> simp

theorem fieldRSVH_packWord (idx l v op) : fieldRSVH (packWord idx l v op) = 0 := by
  refine BitVec.eq_of_getLsbD_eq fun k hk => ?_
  simp only [fieldRSVH, packWord, BitVec.getLsbD_extractLsb', BitVec.getLsbD_append]
  interval_cases k <;> simp

/-- A packed word has no reserved bit set. -/
theorem reservedSet_packWord (idx l v op) : reservedSet (packWord idx l v op) = false := by
  simp [reservedSet, fieldRSVH_packWord, fieldRSVL_packWord]

/-- A word whose reserved fields are 0 is the packing of its own fields. -/
theorem packWord_fields (w : Word) (h : reservedSet w = false) :
    packWord (fieldIDX w) (fieldL w) (fieldV w) (fieldOP w) = w := by
  have hh : fieldRSVH w = 0 := by simp [reservedSet] at h; exact h.1
  have hl : fieldRSVL w = 0 := by simp [reservedSet] at h; exact h.2
  have bitH : ∀ k, k < 8 → w.getLsbD (24 + k) = false := fun k hk => by
    have := congrArg (fun x => x.getLsbD k) hh
    simpa [fieldRSVH, BitVec.getLsbD_extractLsb', hk] using this
  have bitL : ∀ k, k < 2 → w.getLsbD (6 + k) = false := fun k hk => by
    have := congrArg (fun x => x.getLsbD k) hl
    simpa [fieldRSVL, BitVec.getLsbD_extractLsb', hk] using this
  refine BitVec.eq_of_getLsbD_eq fun k hk => ?_
  simp only [packWord, BitVec.getLsbD_append]
  by_cases h4 : k < 4
  · simp [h4, fieldOP]
  · by_cases h5 : k = 4
    · subst h5; simp [fieldV]
    · by_cases h6 : k = 5
      · subst h6; simp [fieldL]
      · by_cases h8 : k < 8
        · have := bitL (k - 6) (by omega)
          rw [show 6 + (k - 6) = k by omega] at this
          simp [show ¬ k < 4 by omega, show ¬ k - 4 < 1 by omega, show ¬ k - 4 - 1 < 1 by omega,
            show k - 4 - 1 - 1 < 2 by omega, this]
        · by_cases h24 : k < 24
          · simp [show ¬ k < 4 by omega, show ¬ k - 4 < 1 by omega, show ¬ k - 4 - 1 < 1 by omega,
              show ¬ k - 4 - 1 - 1 < 2 by omega, show k - 4 - 1 - 1 - 2 < 16 by omega, fieldIDX,
              show 8 + (k - 4 - 1 - 1 - 2) = k by omega]
          · have := bitH (k - 24) (by omega)
            rw [show 24 + (k - 24) = k by omega] at this
            simp [show ¬ k < 4 by omega, show ¬ k - 4 < 1 by omega, show ¬ k - 4 - 1 < 1 by omega,
              show ¬ k - 4 - 1 - 1 < 2 by omega, show ¬ k - 4 - 1 - 1 - 2 < 16 by omega, this]

/-- A packed word as the formulas of R82 write it: each field shifted to its place. -/
theorem packWord_eq_or (idx : BitVec 16) (l v : Bool) (op : BitVec 4) :
    packWord idx l v op = idx.setWidth 32 <<< 8 ||| (BitVec.ofBool l).setWidth 32 <<< 5 |||
      (BitVec.ofBool v).setWidth 32 <<< 4 ||| op.setWidth 32 := by
  refine BitVec.eq_of_getLsbD_eq fun k hk => ?_
  have h32 : k < 32 := hk
  simp only [packWord, BitVec.getLsbD_append, BitVec.getLsbD_or, BitVec.getLsbD_shiftLeft, BitVec.getLsbD_setWidth]
  by_cases h8 : k < 8
  · interval_cases k <;> simp
  · have hop : op.getLsbD k = false := BitVec.getLsbD_of_ge _ _ (by omega)
    rw [if_neg (by omega), if_neg (by omega), if_neg (by omega), if_neg (by omega), hop,
      show k - 4 - 1 - 1 - 2 = k - 8 by omega]
    simp only [h32, h8, show ¬ k < 4 by omega, show ¬ k < 5 by omega, show k - 8 < 32 by omega, decide_true,
      decide_false, Bool.not_false, Bool.true_and, Bool.and_true, Bool.or_false]
    rw [BitVec.getLsbD_of_ge (BitVec.ofBool l) _ (by omega), BitVec.getLsbD_of_ge (BitVec.ofBool v) _ (by omega)]
    by_cases h24 : k - 8 < 16
    · simp [h24]
    · rw [if_neg h24, BitVec.getLsbD_of_ge idx _ (by omega)]; simp

/-- The `OP` value of an operation selects it. -/
theorem opOfField_code (op : Op) : opOfField op.code = some op := by cases op <;> rfl

/-- The operation an `OP` value selects has that value. -/
theorem code_of_opOfField {f : BitVec 4} {op : Op} (h : opOfField f = some op) : op.code = f := by
  revert op; revert f; decide

/-- An `OP` value selects no operation exactly when it is 0x0 or 0x9 to 0xF (R75). -/
theorem opOfField_eq_none_iff (f : BitVec 4) : opOfField f = none ↔ f = 0 ∨ 9 ≤ f.toNat := by
  revert f; decide

/-- The behaviour type of a type's bit is that type. -/
theorem behaviourOfBit_bit (l : Behaviour) : behaviourOfBit l.bit = l := by cases l <;> rfl

/-- The bit of a bit's behaviour type is that bit. -/
theorem bit_behaviourOfBit (b : Bool) : (behaviourOfBit b).bit = b := by cases b <;> rfl

/-- What the decoder answers on a word, case by case in the order of R78. -/
theorem decode_cases (n : Nat) (port : Port) (w : Word) :
    (opOfField (fieldOP w) = none ∧ decode n port w = .error .illegalOp) ∨
    ∃ op, opOfField (fieldOP w) = some op ∧
      ((op.port ≠ port ∧ decode n port w = .error .wrongPort) ∨
       (op.port = port ∧ (reservedSet w || unusedSet op w) = true ∧ decode n port w = .error .reserved) ∨
       (op.port = port ∧ (reservedSet w || unusedSet op w) = false ∧ op.usesIDX = true ∧ n ≤ (fieldIDX w).toNat ∧
         decode n port w = .error .index) ∨
       (op.port = port ∧ (reservedSet w || unusedSet op w) = false ∧
         (op.usesIDX = true → (fieldIDX w).toNat < n) ∧
         decode n port w = .ok (op.instr (fieldIDX w) (fieldV w) (behaviourOfBit (fieldL w))))) := by
  unfold decode
  cases h : opOfField (fieldOP w) with
  | none => exact .inl ⟨rfl, rfl⟩
  | some op =>
    refine .inr ⟨op, rfl, ?_⟩
    by_cases hp : op.port = port
    · simp only [hp, ne_eq, not_true, if_false, false_and, false_or, true_and]
      by_cases hr : (reservedSet w || unusedSet op w) = true
      · exact .inl ⟨hr, by rw [if_pos hr]⟩
      · have hr' : (reservedSet w || unusedSet op w) = false := by simpa using hr
        refine .inr ?_
        rw [if_neg hr]
        by_cases hi : (op.usesIDX && decide (n ≤ (fieldIDX w).toNat)) = true
        · rw [if_pos hi]
          rw [Bool.and_eq_true, decide_eq_true_eq] at hi
          exact .inl ⟨hr', hi.1, hi.2, rfl⟩
        · rw [if_neg hi]
          rw [Bool.and_eq_true, decide_eq_true_eq] at hi
          exact .inr ⟨hr', fun hu => by by_contra hc; exact hi ⟨hu, by omega⟩, rfl⟩
    · exact .inl ⟨hp, by simp [hp]⟩

end Sys2Proof
end

