-- ==== Sys2Proof/Laws/Memory.lean ====
section
/-! SUPPORT. The laws of the block's storage: a read after a write, and that every write keeps the canonical form, for
the association lists, the ring's slots, the bytes and the bits of a bit-set (spec/20_memory.md R50 to R53). -/

namespace Sys2Proof.Machine

/-! ## Association lists -/

theorem Store.get_insert {α : Type} (m : List (Nat × α)) (a : Nat) (x : α) (b : Nat) :
    Store.get (Store.insert m a x) b = if b = a then some x else Store.get m b := by
  induction m with
  | nil => rfl
  | cons c r ih =>
    unfold Store.insert
    split
    · rfl
    · split
      · simp only [Store.get]
        split <;> simp_all
      · simp only [Store.get, ih]
        split <;> split <;> simp_all

theorem Store.get_erase {α : Type} (m : List (Nat × α)) (a b : Nat) :
    Store.get (Store.erase m a) b = if b = a then none else Store.get m b := by
  induction m with
  | nil => simp [Store.erase, Store.get]
  | cons c r ih =>
    unfold Store.erase
    split
    · simp only [ih, Store.get]
      split <;> simp_all
    · simp only [Store.get, ih]
      split <;> split <;> simp_all

theorem Store.mem_insert {α : Type} {m : List (Nat × α)} {a : Nat} {x : α} {c : Nat × α}
    (h : c ∈ Store.insert m a x) : c = (a, x) ∨ c ∈ m := by
  induction m with
  | nil => simpa [Store.insert] using h
  | cons d r ih =>
    unfold Store.insert at h
    split at h
    · simpa using h
    · split at h
      · rcases List.mem_cons.mp h with h | h <;> simp [h]
      · rcases List.mem_cons.mp h with h | h
        · simp [h]
        · rcases ih h with h | h <;> simp [h]

theorem Store.mem_erase {α : Type} {m : List (Nat × α)} {a : Nat} {c : Nat × α}
    (h : c ∈ Store.erase m a) : c ∈ m := by
  induction m with
  | nil => simp [Store.erase] at h
  | cons d r ih =>
    unfold Store.erase at h
    split at h
    · simp [ih h]
    · rcases List.mem_cons.mp h with h | h
      · simp [h]
      · simp [ih h]

theorem Store.mem_of_get {α : Type} {m : List (Nat × α)} {a : Nat} {x : α}
    (h : Store.get m a = some x) : (a, x) ∈ m := by
  induction m with
  | nil => simp [Store.get] at h
  | cons d r ih =>
    unfold Store.get at h
    split at h
    · rename_i e
      injection h with h
      simp [e, ← h]
    · simp [ih h]

theorem Store.insert_rising {α : Type} {m : List (Nat × α)} (h : Store.rising m) (a : Nat) (x : α) :
    Store.rising (Store.insert m a x) := by
  induction m with
  | nil => simp [Store.insert]
  | cons c r ih =>
    have hc := List.pairwise_cons.mp h
    unfold Store.insert
    split
    · rename_i hlt
      refine List.pairwise_cons.mpr ⟨fun d hd => ?_, h⟩
      rcases List.mem_cons.mp hd with rfl | hd
      · exact hlt
      · exact Nat.lt_trans hlt (hc.1 d hd)
    · split
      · rename_i heq
        subst heq
        exact List.pairwise_cons.mpr ⟨fun d hd => hc.1 d hd, hc.2⟩
      · refine List.pairwise_cons.mpr ⟨fun d hd => ?_, ih hc.2⟩
        rcases Store.mem_insert hd with rfl | hd
        · show c.1 < a
          omega
        · exact hc.1 d hd

theorem Store.erase_rising {α : Type} {m : List (Nat × α)} (h : Store.rising m) (a : Nat) :
    Store.rising (Store.erase m a) := by
  induction m with
  | nil => simp [Store.erase]
  | cons c r ih =>
    have hc := List.pairwise_cons.mp h
    unfold Store.erase
    split
    · exact ih hc.2
    · exact List.pairwise_cons.mpr ⟨fun d hd => hc.1 d (Store.mem_erase hd), ih hc.2⟩

/-- Two stores in canonical order that read the same at every key are the same list. -/
theorem Store.ext_of_get {α : Type} {m n : List (Nat × α)} (hm : Store.rising m) (hn : Store.rising n)
    (h : ∀ a, Store.get m a = Store.get n a) : m = n := by
  have absent : ∀ {r : List (Nat × α)} {a : Nat}, (∀ d ∈ r, a < d.1) → Store.get r a = none := by
    intro r a hr
    by_contra hne
    obtain ⟨x, hx⟩ := Option.ne_none_iff_exists'.mp hne
    exact Nat.lt_irrefl _ (hr _ (Store.mem_of_get hx))
  induction m generalizing n with
  | nil =>
    cases n with
    | nil => rfl
    | cons d r => have := h d.1; simp [Store.get] at this
  | cons c r ih =>
    cases n with
    | nil => have := h c.1; simp [Store.get] at this
    | cons d q =>
      have hc := List.pairwise_cons.mp hm
      have hd := List.pairwise_cons.mp hn
      have h1 := h c.1
      have h2 := h d.1
      simp only [Store.get, if_true] at h1 h2
      have key : c.1 = d.1 := by
        rcases Nat.lt_trichotomy c.1 d.1 with hlt | heq | hgt
        · rw [if_neg (by omega), absent (fun e he => Nat.lt_trans hlt (hd.1 e he))] at h1
          cases h1
        · exact heq
        · rw [if_neg (by omega), absent (fun e he => Nat.lt_trans hgt (hc.1 e he))] at h2
          cases h2
      have val : c.2 = d.2 := by rw [if_pos key] at h1; injection h1
      have tails : r = q := by
        refine ih hc.2 hd.2 (fun a => ?_)
        have ha := h a
        simp only [Store.get] at ha
        by_cases e : a = c.1
        · subst e
          rw [absent hc.1, absent (by rw [key]; exact hd.1)]
        · rwa [if_neg e, if_neg (by rw [← key]; exact e)] at ha
      rw [tails, Prod.ext key val]

/-! ## Slots (R29, R50) -/

/-- A slot reads as what was last written to it, and every other slot as before. -/
theorem Slots.read_write (b : Slots) (k : Nat) (x : Snapshot) (j : Nat) :
    Slots.read (Slots.write b k x) j = if j = k then some x else Slots.read b j :=
  Store.get_insert b k x j

theorem Slots.write_wf {b : Slots} (h : Slots.wf b) (k : Nat) (x : Snapshot) : Slots.wf (Slots.write b k x) :=
  Store.insert_rising h k x

theorem Slots.mem_write {b : Slots} {k : Nat} {x : Snapshot} {c : Nat × Snapshot} (h : c ∈ Slots.write b k x) :
    c = (k, x) ∨ c ∈ b :=
  Store.mem_insert h

theorem Slots.mem_of_read {b : Slots} {k : Nat} {x : Snapshot} (h : Slots.read b k = some x) : (k, x) ∈ b :=
  Store.mem_of_get h

/-! ## Bytes (R50) -/

/-- A byte reads as what was last written to it, and every other byte as before. -/
theorem Memory.read_write (m : BitSet) (a : Nat) (x : Byte) (b : Nat) :
    Memory.read (Memory.write m a x) b = if b = a then x else Memory.read m b := by
  unfold Memory.read Memory.write
  split
  · rename_i hx
    rw [Store.get_erase]
    split <;> simp [hx]
  · rw [Store.get_insert]
    split <;> simp

theorem Memory.write_wf {m : BitSet} (h : Memory.wf m) (a : Nat) (x : Byte) : Memory.wf (Memory.write m a x) := by
  unfold Memory.write
  split
  · exact ⟨Store.erase_rising h.1 a, fun c hc => h.2 c (Store.mem_erase hc)⟩
  · rename_i hx
    refine ⟨Store.insert_rising h.1 a x, fun c hc => ?_⟩
    rcases Store.mem_insert hc with rfl | hc
    · exact hx
    · exact h.2 c hc

/-- Two bit-sets in canonical form that read the same at every byte are equal data. -/
theorem Memory.ext_of_read {m n : BitSet} (hm : Memory.wf m) (hn : Memory.wf n)
    (h : ∀ a, Memory.read m a = Memory.read n a) : m = n := by
  refine Store.ext_of_get hm.1 hn.1 (fun a => ?_)
  have ha := h a
  unfold Memory.read at ha
  cases e : Store.get m a with
  | none =>
    cases f : Store.get n a with
    | none => rfl
    | some y => rw [e, f] at ha; exact absurd ha.symm (hn.2 _ (Store.mem_of_get f))
  | some x =>
    cases f : Store.get n a with
    | none => rw [e, f] at ha; exact absurd ha (hm.2 _ (Store.mem_of_get e))
    | some y => rw [e, f] at ha; exact congrArg some ha

/-! ## Bits (R52) -/

/-- Bit `j` of a byte after bit `k` was made `b`. -/
theorem getLsbD_setBit (x : Byte) (k : Nat) (b : Bool) (j : Nat) (hk : k < 8) :
    (setBit x k b).getLsbD j = if j = k then b else x.getLsbD j := by
  by_cases hj : j < 8
  · have one : (1#8 <<< k).getLsbD j = decide (j = k) := by
      interval_cases k <;> interval_cases j <;> rfl
    unfold setBit
    cases b
    · simp only [Bool.false_eq_true, if_false, BitVec.getLsbD_and, BitVec.getLsbD_not, one, hj, decide_true,
        Bool.true_and]
      split <;> simp_all
    · simp only [if_true, BitVec.getLsbD_or, one]
      split <;> simp_all
  · have hne : j ≠ k := by omega
    rw [if_neg hne, BitVec.getLsbD_of_ge _ _ (by omega), BitVec.getLsbD_of_ge _ _ (by omega)]

/-- `BitGet` after `BitPut`: the bit written, and every other bit of the set as before. -/
theorem bitGet_bitPut (m : BitSet) (i : Nat) (b : Bool) (j : Nat) :
    bitGet (bitPut m i b) j = if j = i then b else bitGet m j := by
  unfold bitGet bitPut
  rw [Memory.read_write]
  by_cases hbyte : j / 8 = i / 8
  · rw [if_pos hbyte, getLsbD_setBit _ _ _ _ (by omega)]
    by_cases hbit : j % 8 = i % 8
    · rw [if_pos hbit, if_pos (by omega)]
    · rw [if_neg hbit, if_neg (by omega), hbyte]
  · rw [if_neg hbyte, if_neg (by intro h; exact hbyte (by rw [h]))]

/-- The bytes of a bit-set after `BitPut`: only byte `i div 8` can differ (R116). -/
theorem Memory.read_bitPut_of_ne (m : BitSet) (i : Nat) (b : Bool) (a : Nat) (h : a ≠ i / 8) :
    Memory.read (bitPut m i b) a = Memory.read m a := by
  unfold bitPut
  rw [Memory.read_write, if_neg h]

theorem bitPut_wf {m : BitSet} (h : Memory.wf m) (i : Nat) (b : Bool) : Memory.wf (bitPut m i b) :=
  Memory.write_wf h _ _

/-- The bytes of a bit-set are determined by its bits. -/
theorem Memory.read_eq_of_bitGet {m n : BitSet} (h : ∀ i, bitGet m i = bitGet n i) (a : Nat) :
    Memory.read m a = Memory.read n a := by
  refine BitVec.eq_of_getLsbD_eq (fun k hk => ?_)
  have := h (8 * a + k)
  unfold bitGet at this
  rwa [show (8 * a + k) / 8 = a by omega, show (8 * a + k) % 8 = k by omega] at this

end Sys2Proof.Machine
end

