-- ==== Sys2Proof/Laws/State.lean ====
section
/-! SUPPORT. What each shared update leaves in each field of the state, one lemma per field per update, all by `rfl`. -/

namespace Sys2Proof.Machine

/-! ## `Ports.answer` and `Ports.quiet` -/

@[simp] theorem Ports.answer_active (io : Ports) (w x d) : (io.answer w x d).active = io.active := by
  unfold Ports.answer; split <;> rfl
@[simp] theorem Ports.answer_cmd (io : Ports) (w x d) : (io.answer w x d).cmd = io.cmd := by
  unfold Ports.answer; split <;> rfl
@[simp] theorem Ports.answer_snapIn (io : Ports) (w x d) : (io.answer w x d).snapIn = io.snapIn := by
  unfold Ports.answer; split <;> rfl
@[simp] theorem Ports.answer_snapOut (io : Ports) (w x d) : (io.answer w x d).snapOut = x := by
  unfold Ports.answer; split <;> rfl
@[simp] theorem Ports.answer_dbr (io : Ports) (w x d) : (io.answer w x d).dbr = d := by
  unfold Ports.answer; split <;> rfl

/-- On port P the response stands on `P.RSP`, and `M.RSP` carries nothing. -/
theorem Ports.answer_of_p {io : Ports} (h : io.active = .p) (w x d) :
    io.answer w x d = { io with pRsp := some w, mRsp := none, snapOut := x, dbr := d } := by
  unfold Ports.answer; rw [h]

/-- On port M the response stands on `M.RSP`, and `P.RSP` carries nothing. -/
theorem Ports.answer_of_m {io : Ports} (h : io.active = .m) (w x d) :
    io.answer w x d = { io with pRsp := none, mRsp := some w, snapOut := x, dbr := d } := by
  unfold Ports.answer; rw [h]

@[simp] theorem Ports.quiet_active (io : Ports) : io.quiet.active = io.active := rfl
@[simp] theorem Ports.quiet_cmd (io : Ports) : io.quiet.cmd = io.cmd := rfl
@[simp] theorem Ports.quiet_snapIn (io : Ports) : io.quiet.snapIn = io.snapIn := rfl
@[simp] theorem Ports.quiet_pRsp (io : Ports) : io.quiet.pRsp = none := rfl
@[simp] theorem Ports.quiet_mRsp (io : Ports) : io.quiet.mRsp = none := rfl
@[simp] theorem Ports.quiet_snapOut (io : Ports) : io.quiet.snapOut = none := rfl
@[simp] theorem Ports.quiet_dbr (io : Ports) : io.quiet.dbr = none := rfl

/-! ## `respond` -/

@[simp] theorem respond_params (r : Response) (s : State) :
    (respond r s).params = s.params := rfl
@[simp] theorem respond_head (r : Response) (s : State) :
    (respond r s).head = s.head := rfl
@[simp] theorem respond_tail (r : Response) (s : State) :
    (respond r s).tail = s.tail := rfl
@[simp] theorem respond_count (r : Response) (s : State) :
    (respond r s).count = s.count := rfl
@[simp] theorem respond_buf (r : Response) (s : State) :
    (respond r s).buf = s.buf := rfl
@[simp] theorem respond_rdsnap (r : Response) (s : State) :
    (respond r s).rdsnap = s.rdsnap := rfl
@[simp] theorem respond_pressed (r : Response) (s : State) :
    (respond r s).pressed = s.pressed := rfl
@[simp] theorem respond_latched (r : Response) (s : State) :
    (respond r s).latched = s.latched := rfl
@[simp] theorem respond_fault (r : Response) (s : State) :
    (respond r s).fault = s.fault := rfl
@[simp] theorem respond_events (r : Response) (s : State) :
    (respond r s).events = s.events := rfl
@[simp] theorem respond_ports (r : Response) (s : State) :
    (respond r s).ports = s.ports.answer r.word none none := rfl
@[simp] theorem respond_pQueue (r : Response) (s : State) :
    (respond r s).pQueue = s.pQueue := rfl
@[simp] theorem respond_mQueue (r : Response) (s : State) :
    (respond r s).mQueue = s.mQueue := rfl
@[simp] theorem respond_turns (r : Response) (s : State) :
    (respond r s).turns = s.turns := rfl

/-! ## `respondSnap` -/

@[simp] theorem respondSnap_params (r : Response) (x : Snapshot) (s : State) :
    (respondSnap r x s).params = s.params := rfl
@[simp] theorem respondSnap_head (r : Response) (x : Snapshot) (s : State) :
    (respondSnap r x s).head = s.head := rfl
@[simp] theorem respondSnap_tail (r : Response) (x : Snapshot) (s : State) :
    (respondSnap r x s).tail = s.tail := rfl
@[simp] theorem respondSnap_count (r : Response) (x : Snapshot) (s : State) :
    (respondSnap r x s).count = s.count := rfl
@[simp] theorem respondSnap_buf (r : Response) (x : Snapshot) (s : State) :
    (respondSnap r x s).buf = s.buf := rfl
@[simp] theorem respondSnap_rdsnap (r : Response) (x : Snapshot) (s : State) :
    (respondSnap r x s).rdsnap = s.rdsnap := rfl
@[simp] theorem respondSnap_pressed (r : Response) (x : Snapshot) (s : State) :
    (respondSnap r x s).pressed = s.pressed := rfl
@[simp] theorem respondSnap_latched (r : Response) (x : Snapshot) (s : State) :
    (respondSnap r x s).latched = s.latched := rfl
@[simp] theorem respondSnap_fault (r : Response) (x : Snapshot) (s : State) :
    (respondSnap r x s).fault = s.fault := rfl
@[simp] theorem respondSnap_events (r : Response) (x : Snapshot) (s : State) :
    (respondSnap r x s).events = s.events := rfl
@[simp] theorem respondSnap_ports (r : Response) (x : Snapshot) (s : State) :
    (respondSnap r x s).ports = s.ports.answer r.word (some x) none := rfl
@[simp] theorem respondSnap_pQueue (r : Response) (x : Snapshot) (s : State) :
    (respondSnap r x s).pQueue = s.pQueue := rfl
@[simp] theorem respondSnap_mQueue (r : Response) (x : Snapshot) (s : State) :
    (respondSnap r x s).mQueue = s.mQueue := rfl
@[simp] theorem respondSnap_turns (r : Response) (x : Snapshot) (s : State) :
    (respondSnap r x s).turns = s.turns := rfl

/-! ## `respondDbr` -/

@[simp] theorem respondDbr_params (r : Response) (i : Nat) (s : State) :
    (respondDbr r i s).params = s.params := rfl
@[simp] theorem respondDbr_head (r : Response) (i : Nat) (s : State) :
    (respondDbr r i s).head = s.head := rfl
@[simp] theorem respondDbr_tail (r : Response) (i : Nat) (s : State) :
    (respondDbr r i s).tail = s.tail := rfl
@[simp] theorem respondDbr_count (r : Response) (i : Nat) (s : State) :
    (respondDbr r i s).count = s.count := rfl
@[simp] theorem respondDbr_buf (r : Response) (i : Nat) (s : State) :
    (respondDbr r i s).buf = s.buf := rfl
@[simp] theorem respondDbr_rdsnap (r : Response) (i : Nat) (s : State) :
    (respondDbr r i s).rdsnap = s.rdsnap := rfl
@[simp] theorem respondDbr_pressed (r : Response) (i : Nat) (s : State) :
    (respondDbr r i s).pressed = s.pressed := rfl
@[simp] theorem respondDbr_latched (r : Response) (i : Nat) (s : State) :
    (respondDbr r i s).latched = s.latched := rfl
@[simp] theorem respondDbr_fault (r : Response) (i : Nat) (s : State) :
    (respondDbr r i s).fault = s.fault := rfl
@[simp] theorem respondDbr_events (r : Response) (i : Nat) (s : State) :
    (respondDbr r i s).events = s.events ++ [.dbr i] := rfl
@[simp] theorem respondDbr_ports (r : Response) (i : Nat) (s : State) :
    (respondDbr r i s).ports = s.ports.answer r.word none (some i) := rfl
@[simp] theorem respondDbr_pQueue (r : Response) (i : Nat) (s : State) :
    (respondDbr r i s).pQueue = s.pQueue := rfl
@[simp] theorem respondDbr_mQueue (r : Response) (i : Nat) (s : State) :
    (respondDbr r i s).mQueue = s.mQueue := rfl
@[simp] theorem respondDbr_turns (r : Response) (i : Nat) (s : State) :
    (respondDbr r i s).turns = s.turns := rfl

/-! ## `raise` -/

@[simp] theorem raise_params (c : Fault) (s : State) :
    (raise c s).params = s.params := rfl
@[simp] theorem raise_head (c : Fault) (s : State) :
    (raise c s).head = s.head := rfl
@[simp] theorem raise_tail (c : Fault) (s : State) :
    (raise c s).tail = s.tail := rfl
@[simp] theorem raise_count (c : Fault) (s : State) :
    (raise c s).count = s.count := rfl
@[simp] theorem raise_buf (c : Fault) (s : State) :
    (raise c s).buf = s.buf := rfl
@[simp] theorem raise_rdsnap (c : Fault) (s : State) :
    (raise c s).rdsnap = s.rdsnap := rfl
@[simp] theorem raise_pressed (c : Fault) (s : State) :
    (raise c s).pressed = s.pressed := rfl
@[simp] theorem raise_latched (c : Fault) (s : State) :
    (raise c s).latched = s.latched := rfl
@[simp] theorem raise_fault (c : Fault) (s : State) :
    (raise c s).fault = packFault c s.ports.active s.ports.cmd := rfl
@[simp] theorem raise_events (c : Fault) (s : State) :
    (raise c s).events = s.events := rfl
@[simp] theorem raise_ports (c : Fault) (s : State) :
    (raise c s).ports = s.ports.answer (Response.word { flt := true }) none none := rfl
@[simp] theorem raise_pQueue (c : Fault) (s : State) :
    (raise c s).pQueue = s.pQueue := rfl
@[simp] theorem raise_mQueue (c : Fault) (s : State) :
    (raise c s).mQueue = s.mQueue := rfl
@[simp] theorem raise_turns (c : Fault) (s : State) :
    (raise c s).turns = s.turns := rfl

/-! ## `ignoreHalted` -/

@[simp] theorem ignoreHalted_params (s : State) :
    (ignoreHalted s).params = s.params := rfl
@[simp] theorem ignoreHalted_head (s : State) :
    (ignoreHalted s).head = s.head := rfl
@[simp] theorem ignoreHalted_tail (s : State) :
    (ignoreHalted s).tail = s.tail := rfl
@[simp] theorem ignoreHalted_count (s : State) :
    (ignoreHalted s).count = s.count := rfl
@[simp] theorem ignoreHalted_buf (s : State) :
    (ignoreHalted s).buf = s.buf := rfl
@[simp] theorem ignoreHalted_rdsnap (s : State) :
    (ignoreHalted s).rdsnap = s.rdsnap := rfl
@[simp] theorem ignoreHalted_pressed (s : State) :
    (ignoreHalted s).pressed = s.pressed := rfl
@[simp] theorem ignoreHalted_latched (s : State) :
    (ignoreHalted s).latched = s.latched := rfl
@[simp] theorem ignoreHalted_fault (s : State) :
    (ignoreHalted s).fault = s.fault := rfl
@[simp] theorem ignoreHalted_events (s : State) :
    (ignoreHalted s).events = s.events := rfl
@[simp] theorem ignoreHalted_ports (s : State) :
    (ignoreHalted s).ports = s.ports.answer (Response.word { flt := true }) none none := rfl
@[simp] theorem ignoreHalted_pQueue (s : State) :
    (ignoreHalted s).pQueue = s.pQueue := rfl
@[simp] theorem ignoreHalted_mQueue (s : State) :
    (ignoreHalted s).mQueue = s.mQueue := rfl
@[simp] theorem ignoreHalted_turns (s : State) :
    (ignoreHalted s).turns = s.turns := rfl

/-! ## `idleStep` -/

@[simp] theorem idleStep_params (s : State) :
    (idleStep s).params = s.params := rfl
@[simp] theorem idleStep_head (s : State) :
    (idleStep s).head = s.head := rfl
@[simp] theorem idleStep_tail (s : State) :
    (idleStep s).tail = s.tail := rfl
@[simp] theorem idleStep_count (s : State) :
    (idleStep s).count = s.count := rfl
@[simp] theorem idleStep_buf (s : State) :
    (idleStep s).buf = s.buf := rfl
@[simp] theorem idleStep_rdsnap (s : State) :
    (idleStep s).rdsnap = s.rdsnap := rfl
@[simp] theorem idleStep_pressed (s : State) :
    (idleStep s).pressed = s.pressed := rfl
@[simp] theorem idleStep_latched (s : State) :
    (idleStep s).latched = s.latched := rfl
@[simp] theorem idleStep_fault (s : State) :
    (idleStep s).fault = s.fault := rfl
@[simp] theorem idleStep_events (s : State) :
    (idleStep s).events = s.events := rfl
@[simp] theorem idleStep_ports (s : State) :
    (idleStep s).ports = s.ports.quiet := rfl
@[simp] theorem idleStep_pQueue (s : State) :
    (idleStep s).pQueue = s.pQueue := rfl
@[simp] theorem idleStep_mQueue (s : State) :
    (idleStep s).mQueue = s.mQueue := rfl
@[simp] theorem idleStep_turns (s : State) :
    (idleStep s).turns = s.turns := rfl

/-! ## `globalReset` -/

@[simp] theorem globalReset_params (s : State) :
    (globalReset s).params = s.params := rfl
@[simp] theorem globalReset_head (s : State) :
    (globalReset s).head = 0 := rfl
@[simp] theorem globalReset_tail (s : State) :
    (globalReset s).tail = 0 := rfl
@[simp] theorem globalReset_count (s : State) :
    (globalReset s).count = 0 := rfl
@[simp] theorem globalReset_buf (s : State) :
    (globalReset s).buf = [] := rfl
@[simp] theorem globalReset_rdsnap (s : State) :
    (globalReset s).rdsnap = none := rfl
@[simp] theorem globalReset_pressed (s : State) :
    (globalReset s).pressed = [] := rfl
@[simp] theorem globalReset_latched (s : State) :
    (globalReset s).latched = [] := rfl
@[simp] theorem globalReset_fault (s : State) :
    (globalReset s).fault = 0 := rfl
@[simp] theorem globalReset_events (s : State) :
    (globalReset s).events = [] := rfl
@[simp] theorem globalReset_ports (s : State) :
    (globalReset s).ports = Ports.atReset := rfl
@[simp] theorem globalReset_pQueue (s : State) :
    (globalReset s).pQueue = s.pQueue := rfl
@[simp] theorem globalReset_mQueue (s : State) :
    (globalReset s).mQueue = s.mQueue := rfl
@[simp] theorem globalReset_turns (s : State) :
    (globalReset s).turns = s.turns := rfl

/-! ## `State.resetFor` -/

@[simp] theorem State.resetFor_params (cfg : Params) :
    (State.resetFor cfg).params = cfg := rfl
@[simp] theorem State.resetFor_head (cfg : Params) :
    (State.resetFor cfg).head = 0 := rfl
@[simp] theorem State.resetFor_tail (cfg : Params) :
    (State.resetFor cfg).tail = 0 := rfl
@[simp] theorem State.resetFor_count (cfg : Params) :
    (State.resetFor cfg).count = 0 := rfl
@[simp] theorem State.resetFor_buf (cfg : Params) :
    (State.resetFor cfg).buf = [] := rfl
@[simp] theorem State.resetFor_rdsnap (cfg : Params) :
    (State.resetFor cfg).rdsnap = none := rfl
@[simp] theorem State.resetFor_pressed (cfg : Params) :
    (State.resetFor cfg).pressed = [] := rfl
@[simp] theorem State.resetFor_latched (cfg : Params) :
    (State.resetFor cfg).latched = [] := rfl
@[simp] theorem State.resetFor_fault (cfg : Params) :
    (State.resetFor cfg).fault = 0 := rfl
@[simp] theorem State.resetFor_events (cfg : Params) :
    (State.resetFor cfg).events = [] := rfl
@[simp] theorem State.resetFor_ports (cfg : Params) :
    (State.resetFor cfg).ports = Ports.atReset := rfl
@[simp] theorem State.resetFor_pQueue (cfg : Params) :
    (State.resetFor cfg).pQueue = [] := rfl
@[simp] theorem State.resetFor_mQueue (cfg : Params) :
    (State.resetFor cfg).mQueue = [] := rfl
@[simp] theorem State.resetFor_turns (cfg : Params) :
    (State.resetFor cfg).turns = [] := rfl

end Sys2Proof.Machine
end

