-- ==== Sys2Proof/Laws/Ops.lean ====
section
/-! SUPPORT. One lemma for each shared operation that says once everything it can do: the fields of a recorded fault, the
frame of a command, the effects of the ring and edge commands, what arrives in a step, and the step itself. -/

namespace Sys2Proof.Machine

/-! ## The `FAULT` register (R34) -/

@[simp] theorem faultValid_packFault (c : Fault) (port : Port) (w : Word) :
    faultValid (packFault c port w) = true := by
  simp only [faultValid, packFault, BitVec.getLsbD_append]
  simp

@[simp] theorem faultCode_packFault (c : Fault) (port : Port) (w : Word) :
    faultCode (packFault c port w) = c.code := by
  refine BitVec.eq_of_getLsbD_eq fun k hk => ?_
  simp only [faultCode, packFault, BitVec.getLsbD_extractLsb', BitVec.getLsbD_append]
  interval_cases k <;> simp

@[simp] theorem faultPort_packFault (c : Fault) (port : Port) (w : Word) :
    faultPort (packFault c port w) = portBit port := by
  simp only [faultPort, packFault, BitVec.getLsbD_append]
  simp

@[simp] theorem faultReserved_packFault (c : Fault) (port : Port) (w : Word) :
    faultReserved (packFault c port w) = 0 := by
  refine BitVec.eq_of_getLsbD_eq fun k hk => ?_
  simp only [faultReserved, packFault, BitVec.getLsbD_extractLsb', BitVec.getLsbD_append]
  interval_cases k <;> simp

@[simp] theorem faultCmd_packFault (c : Fault) (port : Port) (w : Word) : faultCmd (packFault c port w) = w := by
  refine BitVec.eq_of_getLsbD_eq fun k hk => ?_
  simp only [faultCmd, packFault, BitVec.getLsbD_extractLsb', BitVec.getLsbD_append]
  interval_cases k <;> simp

@[simp] theorem faultValid_zero : faultValid 0#40 = false := rfl

/-! ## The frame of a command -/

/-- A command is ignored in a halted block, faults on the wrong port, or has its effect. -/
theorem command_cases (op : Op) (effect : State → State) (s : State) :
    (halted s = true ∧ command op effect s = ignoreHalted s) ∨
    (halted s = false ∧ s.ports.active = op.port ∧ command op effect s = effect s) ∨
    (halted s = false ∧ s.ports.active ≠ op.port ∧ command op effect s = raise .wrongPort s) := by
  unfold command portLegal
  cases h : halted s
  · by_cases hp : s.ports.active = op.port
    · exact .inr (.inl ⟨rfl, hp, by simp [hp]⟩)
    · exact .inr (.inr ⟨rfl, hp, by simp [hp]⟩)
  · exact .inl ⟨rfl, rfl⟩

/-- A `BS_` command: as `command_cases`, and a fault on an index out of range. -/
theorem buttonCommand_cases (op : Op) (idx : BitVec 16) (effect : Nat → State → State) (s : State) :
    (halted s = true ∧ buttonCommand op idx effect s = ignoreHalted s) ∨
    (halted s = false ∧ s.ports.active ≠ op.port ∧ buttonCommand op idx effect s = raise .wrongPort s) ∨
    (halted s = false ∧ s.ports.active = op.port ∧ s.params.N ≤ idx.toNat ∧
      buttonCommand op idx effect s = raise .index s) ∨
    (halted s = false ∧ s.ports.active = op.port ∧ idx.toNat < s.params.N ∧
      buttonCommand op idx effect s = effect idx.toNat s) := by
  unfold buttonCommand
  rcases command_cases op (fun t => if indexLegal idx.toNat t then effect idx.toNat t else raise .index t) s with
    ⟨h, e⟩ | ⟨h, hp, e⟩ | ⟨h, hp, e⟩
  · exact .inl ⟨h, e⟩
  · by_cases hi : idx.toNat < s.params.N
    · exact .inr (.inr (.inr ⟨h, hp, hi, by rw [e]; simp [indexLegal, hi]⟩))
    · exact .inr (.inr (.inl ⟨h, hp, by omega, by rw [e]; simp [indexLegal, hi]⟩))
  · exact .inr (.inl ⟨h, hp, e⟩)

/-! ## The effects -/

/-- A produce drops when full, else advances, writes and counts (R90). -/
theorem produceEffect_cases (s : State) :
    (s.count = s.params.D ∧ produceEffect s = respond {} s) ∨
    (s.count ≠ s.params.D ∧ produceEffect s =
      respond {} { s with head := (s.head + 1) % s.params.D
                          buf := Slots.write s.buf ((s.head + 1) % s.params.D) s.ports.snapIn
                          count := s.count + 1 }) := by
  unfold produceEffect full
  by_cases h : s.count = s.params.D
  · exact .inl ⟨h, by simp [h]⟩
  · exact .inr ⟨h, by simp [h, produceSlot, nextCursor, snapOperand]⟩

/-- A consume returns nothing when empty, faults on an `UNSPEC` slot, else advances, copies and uncounts (R93). -/
theorem consumeEffect_cases (s : State) :
    (s.count = 0 ∧ consumeEffect s = respond {} s) ∨
    (s.count ≠ 0 ∧ Slots.read s.buf ((s.tail + 1) % s.params.D) = none ∧ consumeEffect s = raise .unwritten s) ∨
    (s.count ≠ 0 ∧ ∃ x, Slots.read s.buf ((s.tail + 1) % s.params.D) = some x ∧ consumeEffect s =
      respondSnap { present := true } x { s with tail := (s.tail + 1) % s.params.D
                                                 rdsnap := some x
                                                 count := s.count - 1 }) := by
  unfold consumeEffect empty
  by_cases h : s.count = 0
  · exact .inl ⟨h, by simp [h]⟩
  · have e : (s.count == 0) = false := by simp [h]
    rw [e]
    simp only [Bool.false_eq_true, if_false, consumeSlot, nextCursor]
    cases hr : Slots.read s.buf ((s.tail + 1) % s.params.D) with
    | none => exact .inr (.inl ⟨h, rfl, rfl⟩)
    | some x => exact .inr (.inr ⟨h, x, rfl, rfl⟩)

/-- `BS_EDGE` sees no edge, a latching press, a latching release, or a momentary edge (R120). -/
theorem edgeEffect_cases (v : Bool) (l : Behaviour) (i : Nat) (s : State) :
    (v = bitGet s.pressed i ∧ edgeEffect v l i s = respond {} s) ∨
    (v ≠ bitGet s.pressed i ∧ l = .latching ∧ v = true ∧ edgeEffect v l i s =
      respond { edge := true, send := true, eff := !bitGet s.latched i }
        { s with pressed := bitPut s.pressed i true
                 latched := bitPut s.latched i (!bitGet s.latched i) }) ∨
    (v ≠ bitGet s.pressed i ∧ l = .latching ∧ v = false ∧ edgeEffect v l i s =
      respond { edge := true } { s with pressed := bitPut s.pressed i false }) ∨
    (v ≠ bitGet s.pressed i ∧ l = .momentary ∧ edgeEffect v l i s =
      respond { edge := true, send := true, eff := v } { s with pressed := bitPut s.pressed i v }) := by
  unfold edgeEffect
  by_cases h : v = bitGet s.pressed i
  · exact .inl ⟨h, by rw [if_pos h]⟩
  · refine .inr ?_
    rw [if_neg h]
    cases l
    · exact .inr (.inr ⟨h, rfl, rfl⟩)
    · cases v
      · exact .inr (.inl ⟨h, rfl, rfl, rfl⟩)
      · exact .inl ⟨h, rfl, rfl, rfl⟩

/-! ## The step -/

/-- Everything that can arrive in a step (R59, R172). -/
theorem arrival_cases (s : State) :
    (s.turns = [] ∧ arrival s = (.idle, s)) ∨
    (∃ ts, s.turns = .reset :: ts ∧ arrival s = (.reset, { s with turns := ts })) ∨
    (∃ ts, s.turns = .port .p :: ts ∧ s.pQueue = [] ∧ arrival s = (.idle, { s with turns := ts })) ∨
    (∃ ts, s.turns = .port .m :: ts ∧ s.mQueue = [] ∧ arrival s = (.idle, { s with turns := ts })) ∨
    (∃ ts c cs, s.turns = .port .p :: ts ∧ s.pQueue = c :: cs ∧
      arrival s = (.command, { s with turns := ts, pQueue := cs,
                                      ports := { s.ports with active := .p, cmd := c.cmd, snapIn := c.snapIn } })) ∨
    (∃ ts w ws, s.turns = .port .m :: ts ∧ s.mQueue = w :: ws ∧
      arrival s = (.command, { s with turns := ts, mQueue := ws,
                                      ports := { s.ports with active := .m, cmd := w } })) := by
  unfold arrival
  rcases ht : s.turns with _ | ⟨(_ | _) | _, ts⟩
  · exact .inl ⟨rfl, rfl⟩
  · cases hq : s.pQueue with
    | nil => exact .inr (.inr (.inl ⟨ts, rfl, rfl, rfl⟩))
    | cons c cs => exact .inr (.inr (.inr (.inr (.inl ⟨ts, c, cs, rfl, rfl, rfl⟩))))
  · cases hq : s.mQueue with
    | nil => exact .inr (.inr (.inr (.inl ⟨ts, rfl, rfl, rfl⟩)))
    | cons w ws => exact .inr (.inr (.inr (.inr (.inr ⟨ts, w, ws, rfl, rfl, rfl⟩))))
  · exact .inr (.inl ⟨ts, rfl, rfl⟩)

/-- Whatever arrives, the block's state and the parameters are as they were (R20, R175). -/
theorem arrival_frame {s t : State} {a : Arrival} (h : arrival s = (a, t)) : t.block = s.block ∧ t.params = s.params := by
  rcases arrival_cases s with ⟨_, e⟩ | ⟨_, _, e⟩ | ⟨_, _, _, e⟩ | ⟨_, _, _, e⟩ | ⟨_, _, _, _, _, e⟩ | ⟨_, _, _, _, _, e⟩ <;>
    rw [h] at e <;> cases e <;> exact ⟨rfl, rfl⟩

/-- A command step ignores the command, takes a decoding fault, or executes the decoded instruction (R147). -/
theorem commandStep_cases (s : State) :
    (halted s = true ∧ commandStep s = .next (ignoreHalted s)) ∨
    (halted s = false ∧ ∃ c, fetch s = .error c ∧ commandStep s = .next (raise c s)) ∨
    (halted s = false ∧ ∃ i, fetch s = .ok i ∧ commandStep s = exec i s) := by
  unfold commandStep
  cases h : halted s
  · refine .inr ?_
    cases hf : fetch s with
    | error c => exact .inl ⟨rfl, c, rfl, rfl⟩
    | ok i => exact .inr ⟨rfl, i, rfl, rfl⟩
  · exact .inl ⟨rfl, rfl⟩

/-- Everything a step can be: no command, the global reset, or a command step. -/
theorem step_cases (s : State) :
    (∃ t, arrival s = (.idle, t) ∧ step s = .next (idleStep t)) ∨
    (∃ t, arrival s = (.reset, t) ∧ step s = .next (globalReset t)) ∨
    (∃ t, arrival s = (.command, t) ∧ step s = commandStep t) := by
  unfold step
  rcases h : arrival s with ⟨_ | _ | _, t⟩
  · exact .inl ⟨t, rfl, rfl⟩
  · exact .inr (.inl ⟨t, rfl, rfl⟩)
  · exact .inr (.inr ⟨t, rfl, rfl⟩)

end Sys2Proof.Machine
end

