-- ==== Sys2Proof/Laws/PerInstr.lean ====
section
/-! SUPPORT. A family of facts about each instruction's encoding: the fields of its word read back as the instruction's
operation and operands, with no reserved and no unused bit set (spec/30_encoding.md R71, R73, R76). -/

namespace Sys2Proof

/-- The fields of the word of `i` are those of `i`, and no other bit of the word is set. -/
def Laws.EncodedFields.Statement (i : Instr) : Prop :=
  opOfField (fieldOP (encode i)) = some i.op ∧ reservedSet (encode i) = false ∧ unusedSet i.op (encode i) = false ∧
    i.op.instr (fieldIDX (encode i)) (fieldV (encode i)) (behaviourOfBit (fieldL (encode i))) = i

/-- What the fields of an instruction say of its word. -/
theorem Laws.encodedFields_of_fields (i : Instr)
    (hu : (!i.op.usesIDX && i.fields.1 != 0 || !i.op.usesL && i.fields.2.1 || !i.op.usesV && i.fields.2.2) = false)
    (hi : i.op.instr i.fields.1 i.fields.2.2 (behaviourOfBit i.fields.2.1) = i) :
    Laws.EncodedFields.Statement i := by
  refine ⟨?_, ?_, ?_, ?_⟩ <;>
    simp only [encode, unusedSet, fieldOP_packWord, fieldIDX_packWord, fieldV_packWord, fieldL_packWord,
      reservedSet_packWord, opOfField_code]
  · exact hu
  · exact hi

theorem Laws.EncodedFields.rbProduce : Laws.EncodedFields.Statement .rbProduce :=
  Laws.encodedFields_of_fields _ rfl rfl

theorem Laws.EncodedFields.rbConsume : Laws.EncodedFields.Statement .rbConsume :=
  Laws.encodedFields_of_fields _ rfl rfl

theorem Laws.EncodedFields.bsGetPressed (idx : BitVec 16) : Laws.EncodedFields.Statement (.bsGetPressed idx) :=
  Laws.encodedFields_of_fields _ rfl rfl

theorem Laws.EncodedFields.bsSetPressed (idx : BitVec 16) (v : Bool) :
    Laws.EncodedFields.Statement (.bsSetPressed idx v) :=
  Laws.encodedFields_of_fields _ rfl rfl

theorem Laws.EncodedFields.bsGetLatched (idx : BitVec 16) : Laws.EncodedFields.Statement (.bsGetLatched idx) :=
  Laws.encodedFields_of_fields _ rfl rfl

theorem Laws.EncodedFields.bsSetLatched (idx : BitVec 16) (v : Bool) :
    Laws.EncodedFields.Statement (.bsSetLatched idx v) :=
  Laws.encodedFields_of_fields _ rfl rfl

theorem Laws.EncodedFields.bsResetIndex (idx : BitVec 16) : Laws.EncodedFields.Statement (.bsResetIndex idx) :=
  Laws.encodedFields_of_fields _ rfl rfl

theorem Laws.EncodedFields.bsEdge (idx : BitVec 16) (v : Bool) (l : Behaviour) :
    Laws.EncodedFields.Statement (.bsEdge idx v l) := by
  cases l <;> exact Laws.encodedFields_of_fields _ rfl rfl

end Sys2Proof
end

