-- ==== Sys2Proof/Tests/Slice0.lean ====
section
/-! SUPPORT. The model's own tests. The expected values are those of spec/95_test_vectors.md (named by their ids there) or
written out by hand from the rules named; `Config.build` has the parameters of those vectors. The
last section shows concrete states that meet the hypotheses of the statements for the provers, together, and a state for
each clause of a statement with several. -/

namespace Sys2Proof.Tests

open Sys2Proof Sys2Proof.Machine

/-! ## Small states -/

/-- The reset state with the ring `(HEAD, TAIL, COUNT, BUF, RDSNAP)`. -/
def ring (h t c : Nat) (b : Slots) (r : Option Snapshot) : State :=
  { State.reset with head := h, tail := t, count := c, buf := b, rdsnap := r }

/-- The reset state with the given bytes of `PRESSED` and `LATCHED`. -/
def keys (p l : BitSet) : State := { State.reset with pressed := p, latched := l }

/-- `s` with `w` on `M.CMD`, port M active. -/
def onM (w : Word) (s : State) : State := { s with ports := { s.ports with active := .m, cmd := w } }

/-- `s` with `w` on `P.CMD` and `x` on `P.SNAP_IN`, port P active. -/
def onP (w : Word) (x : Snapshot) (s : State) : State :=
  { s with ports := { s.ports with active := .p, cmd := w, snapIn := x } }

/-- `s` with one command to come on port M. -/
def sendM (w : Word) (s : State) : State := { s with turns := [.port .m], mQueue := [w] }

/-- `s` with one command to come on port P. -/
def sendP (w : Word) (x : Snapshot) (s : State) : State := { s with turns := [.port .p], pQueue := [⟨w, x⟩] }

/-- The reset state of a build with `n` logical indices. -/
def smallBuild : State := State.resetFor { D := 3, S := 1, N := 10 }

/-- A halted state: code 2, port M, word 0x00000001 (T-RB-12). -/
def faulted : State := { State.reset with fault := 0x0000000105 }

/-! ## WellFormed: an ill-formed term for each check (R110: `i < N`) -/

theorem test_ill_formed_get_pressed : (Instr.bsGetPressed 16).wellFormed 16 = false := by decide
theorem test_ill_formed_set_pressed : (Instr.bsSetPressed 16 true).wellFormed 16 = false := by decide
theorem test_ill_formed_get_latched : (Instr.bsGetLatched 65535).wellFormed 16 = false := by decide
theorem test_ill_formed_set_latched : (Instr.bsSetLatched 10 false).wellFormed 10 = false := by decide
theorem test_ill_formed_reset_index : (Instr.bsResetIndex 1).wellFormed 1 = false := by decide
theorem test_ill_formed_edge : (Instr.bsEdge 255 true .latching).wellFormed 16 = false := by decide
theorem test_well_formed_at_the_bound :
    (Instr.bsEdge 65535 false .momentary).wellFormed 65536 = true ∧ (Instr.bsGetPressed 15).wellFormed 16 = true ∧
    Instr.rbProduce.wellFormed 1 = true ∧ Instr.rbConsume.wellFormed 1 = true := by decide

/-! ## Decoding: one word of each constructor, written bit by bit from the pattern of R74 -/

theorem test_decode_rb_produce :
    decode 16 .p 0b00000000_0000000000000000_00_0_0_0001 = .ok .rbProduce ∧
    encode .rbProduce = 0b00000000_0000000000000000_00_0_0_0001 := by decide
theorem test_decode_rb_consume :
    decode 16 .m 0b00000000_0000000000000000_00_0_0_0010 = .ok .rbConsume ∧
    encode .rbConsume = 0b00000000_0000000000000000_00_0_0_0010 := by decide
theorem test_decode_bs_get_pressed :
    decode 16 .m 0b00000000_0000000000001001_00_0_0_0011 = .ok (.bsGetPressed 9) ∧
    encode (.bsGetPressed 9) = 0b00000000_0000000000001001_00_0_0_0011 := by decide
theorem test_decode_bs_set_pressed :
    decode 16 .m 0b00000000_0000000000000101_00_0_1_0100 = .ok (.bsSetPressed 5 true) ∧
    encode (.bsSetPressed 5 true) = 0b00000000_0000000000000101_00_0_1_0100 := by decide
theorem test_decode_bs_get_latched :
    decode 16 .m 0b00000000_0000000000000011_00_0_0_0101 = .ok (.bsGetLatched 3) ∧
    encode (.bsGetLatched 3) = 0b00000000_0000000000000011_00_0_0_0101 := by decide
theorem test_decode_bs_set_latched :
    decode 16 .m 0b00000000_0000000000001001_00_0_1_0110 = .ok (.bsSetLatched 9 true) ∧
    encode (.bsSetLatched 9 true) = 0b00000000_0000000000001001_00_0_1_0110 := by decide
theorem test_decode_bs_reset_index :
    decode 16 .m 0b00000000_0000000000000011_00_0_0_0111 = .ok (.bsResetIndex 3) ∧
    encode (.bsResetIndex 3) = 0b00000000_0000000000000011_00_0_0_0111 := by decide
theorem test_decode_bs_edge :
    decode 65536 .m 0b00000000_1000000000000001_00_1_0_1000 = .ok (.bsEdge 0x8001 false .latching) ∧
    encode (.bsEdge 0x8001 false .latching) = 0b00000000_1000000000000001_00_1_0_1000 := by decide

/-! ## Decoding: faults and their priority (spec/95_test_vectors.md 2.2, 2.3) -/

theorem test_decode_illegal_op : decode 16 .m 0x00000000 = .error .illegalOp ∧
    decode 16 .p 0x0000000F = .error .illegalOp ∧ decode 16 .m 0xFF000009 = .error .illegalOp := by decide
theorem test_decode_wrong_port : decode 16 .m 0x01000001 = .error .wrongPort ∧
    decode 16 .p 0x00000002 = .error .wrongPort ∧ decode 16 .p 0x00FFFF38 = .error .wrongPort := by decide
theorem test_decode_reserved : decode 16 .m 0x00000102 = .error .reserved ∧
    decode 16 .m 0x00000013 = .error .reserved ∧ decode 16 .m 0x00000024 = .error .reserved ∧
    decode 16 .m 0x01000003 = .error .reserved ∧ decode 16 .m 0x00000048 = .error .reserved ∧
    decode 16 .m 0x0000FF13 = .error .reserved ∧ decode 16 .p 0x00000011 = .error .reserved := by decide
theorem test_decode_index : decode 16 .m 0x0000FF03 = .error .index ∧ decode 16 .m 0x00001003 = .error .index ∧
    decode 16 .m 0x00000F03 = .ok (.bsGetPressed 15) := by decide

/-- Words as the opcode table numbers their bits: bit 0 least significant, every bit above `nbits` 0. -/
theorem test_decode_table_words :
    decodeTableWord 32 1 = some .rbProduce ∧ decodeTableWord 32 2 = some .rbConsume ∧
    decodeTableWord 32 0x00FFFF38 = some (.bsEdge 65535 true .latching) ∧ decodeTableWord 32 0 = none ∧
    decodeTableWord 32 0x100000001 = some .rbProduce := by decide

/-- A table word placed for the next step is served in that step, whichever port it belongs to. -/
theorem test_fetch_word_runs_next :
    (nextState (State.reset.withFetchWord 32 0x00000338)).latched = [(0, 0x08)] ∧
    (nextState (State.reset.withFetchWord 32 1)).buf = [(1, [0])] := by decide

/-! ## The assembler (spec/95_test_vectors.md 2.4) -/

theorem test_read_edge_line :
    (readLine 1 ['b', 's', '.', 'e', 'd', 'g', 'e', ' ', '6', '5', '5', '3', '5', ',', ' ', '1', ',', ' ', 'l', 'a', 't']).map
      assemble = some ⟨.m, 0x00FFFF38, none⟩ := by decide
theorem test_read_produce_line :
    (readLine 2 ['P', ':', ' ', 'r', 'b', '.', 'p', 'r', 'o', 'd', 'u', 'c', 'e', ' ', '0', 'x', '1', '2', '3', '4']).map
      assemble = some ⟨.p, 0x00000001, some [0x34, 0x12]⟩ := by decide
theorem test_assemble_pseudo :
    (assemble ⟨none, .clrp 5⟩).word = 0x00000504 ∧ (assemble ⟨none, .clrl 9⟩).word = 0x00000906 ∧
    (assemble ⟨none, .press 3 .latching⟩).word = 0x00000338 ∧
    (assemble ⟨some .p, .release 5 .momentary⟩) = ⟨.p, 0x00000508, none⟩ := by decide

/-! ## One step of each instruction (spec/95_test_vectors.md 2.1, 2.2) -/

/-- T-RB-3: `HEAD` wraps 2 to 0. -/
theorem test_produce_wraps :
    let t := nextState (sendP 1 [0x33] (ring 2 0 2 [(1, [0x11]), (2, [0x22])] none))
    t.head = 0 ∧ t.tail = 0 ∧ t.count = 3 ∧ t.buf = [(0, [0x33]), (1, [0x11]), (2, [0x22])] ∧
    t.ports.pRsp = some 0 := by decide

/-- T-RB-4: a full ring drops the new snapshot. -/
theorem test_produce_drops_when_full :
    let s := ring 0 0 3 [(0, [0x33]), (1, [0x11]), (2, [0x22])] none
    (nextState (sendP 1 [0x44] s)).block = s.block ∧ (nextState (sendP 1 [0x44] s)).ports.pRsp = some 0 := by decide

/-- T-RB-7: `TAIL` wraps 2 to 0, and the slot read keeps its contents. -/
theorem test_consume_wraps :
    let b : Slots := [(0, [0x33]), (1, [0x11]), (2, [0x22])]
    let t := nextState (sendM 2 (ring 0 2 1 b (some [0x22])))
    t.tail = 0 ∧ t.count = 0 ∧ t.buf = b ∧ t.rdsnap = some [0x33] ∧ t.ports.mRsp = some 1 ∧
    t.ports.snapOut = some [0x33] := by decide

/-- T-RB-8: an empty ring returns nothing, though the next slot holds a stale snapshot. -/
theorem test_consume_empty :
    let s := ring 0 0 0 [(0, [0x33]), (1, [0x11]), (2, [0x22])] (some [0x33])
    (nextState (sendM 2 s)).block = s.block ∧ (nextState (sendM 2 s)).ports.mRsp = some 0 ∧
    (nextState (sendM 2 s)).ports.snapOut = none := by decide

/-- The example of R112: with `pressed[9]` = 1, `bs.getp 9` returns 0x00000002. -/
theorem test_get_pressed :
    (nextState (sendM 0x00000903 (keys [(1, 0x02)] []))).ports.mRsp = some 2 ∧
    (nextState (sendM 0x00000903 (keys [(1, 0x01)] [(1, 0x02)]))).ports.mRsp = some 0 := by decide

/-- T-BS-3 and T-BS-6: bit 7 of byte 0 set and cleared, bit 0 kept. -/
theorem test_set_pressed :
    (nextState (sendM 0x00000714 (keys [(0, 0x01)] []))).pressed = [(0, 0x81)] ∧
    (nextState (sendM 0x00000704 (keys [(0, 0x81)] []))).pressed = [(0, 0x01)] := by decide

/-- T-BS-7: `latched[9]` read, with `pressed[9]` = 0. -/
theorem test_get_latched :
    (nextState (sendM 0x00000905 (keys [] [(1, 0x02)]))).ports.mRsp = some 2 ∧
    (nextState (sendM 0x00000905 (keys [(1, 0x02)] []))).ports.mRsp = some 0 := by decide

/-- The example of R115: bit 1 of `LATCHED` byte 1, and `PRESSED` not touched. -/
theorem test_set_latched :
    let t := nextState (sendM 0x00000916 (keys [(0, 0x40)] []))
    t.latched = [(1, 0x02)] ∧ t.pressed = [(0, 0x40)] ∧ t.ports.mRsp = some 0 := by decide

/-- T-BS-8. -/
theorem test_reset_index :
    let t := nextState (sendM 0x00000307 (keys [(0, 0x0C)] [(0, 0x08)]))
    t.pressed = [(0, 0x04)] ∧ t.latched = [] ∧ t.events = [.dbr 3] ∧ t.ports.dbr = some 3 ∧
    t.ports.mRsp = some 0 := by decide

/-- T-BS-9 (presses and releases of a latching index) and T-BS-14. -/
theorem test_edge_latching :
    (nextState (sendM 0x00000338 (keys [] []))).ports.mRsp = some 0x1C ∧
    (nextState (sendM 0x00000328 (keys [(0, 0x08)] [(0, 0x08)]))).ports.mRsp = some 0x04 ∧
    (nextState (sendM 0x00000328 (keys [(0, 0x08)] [(0, 0x08)]))).latched = [(0, 0x08)] ∧
    (nextState (sendM 0x00000638 (keys [] [(0, 0x40)]))).ports.mRsp = some 0x0C ∧
    (nextState (sendM 0x00000638 (keys [] [(0, 0x40)]))).latched = [] := by decide

/-- T-BS-10, T-BS-11 and T-BS-12: momentary edges, and no edge. -/
theorem test_edge_momentary :
    (nextState (sendM 0x00000518 (keys [] [(0, 0x20)]))).ports.mRsp = some 0x1C ∧
    (nextState (sendM 0x00000518 (keys [] [(0, 0x20)]))).latched = [(0, 0x20)] ∧
    (nextState (sendM 0x00000518 (keys [(0, 0x20)] []))).ports.mRsp = some 0 ∧
    (nextState (sendM 0x00000508 (keys [(0, 0x20)] []))).ports.mRsp = some 0x0C ∧
    (nextState (sendM 0x00000508 (keys [(0, 0x20)] []))).pressed = [] := by decide

/-! ## Faults, halt and reset -/

/-- T-RB-12, T-RB-13, T-D-3, T-BS-15 and T-BS-16: the value of `FAULT`. -/
theorem test_fault_values :
    (nextState (sendM 0x00000001 State.reset)).fault = 0x0000000105 ∧
    (nextState (sendP 0x00000002 [0] State.reset)).fault = 0x0000000215 ∧
    (nextState (sendM 0xFF000009 State.reset)).fault = 0xFF00000903 ∧
    (nextState (sendM 0x00001003 State.reset)).fault = 0x0000100309 ∧
    (nextState (sendM 0x00000A14 smallBuild)).fault = 0x00000A1409 := by decide

/-- Code 5: a consume from a slot that holds `UNSPEC` (R93) changes nothing but `FAULT`; no run reaches this state. -/
theorem test_fault_unwritten :
    let s := ring 1 0 1 [] none
    (nextState (sendM 2 s)).block = { s.block with fault := 0x000000020B } ∧
    (nextState (sendM 2 s)).ports.mRsp = some 0x80 := by decide

/-- T-D-8: a command after a fault. -/
theorem test_halted :
    (nextState (sendM 2 faulted)).block = faulted.block ∧ (nextState (sendM 2 faulted)).ports.mRsp = some 0x80 := by decide

/-- The host's reset clears the fault and everything else, and keeps the build. -/
theorem test_global_reset :
    let t := nextState { keys [(0, 1)] [(1, 2)] with head := 2, fault := 0x0000000105, events := [.dbr 3], turns := [.reset] }
    t = State.reset := by decide

/-! ## Hypotheses that can be met -/

/-- A ring with one live snapshot, in slot 0 after a wrap of `HEAD`, with bits held and an event emitted. -/
def busy : State :=
  { ring 0 2 1 [(0, [0x33]), (2, [0x22])] (some [0x22]) with
    pressed := [(0, 0x20)], latched := [(1, 0x80)], events := [.dbr 15] }

theorem witness_DecodeOfEncodeIsTheInstruction :
    WellFormed 65536 (.bsEdge 65535 true .latching) ∧ WellFormed 16 (.bsGetPressed 15) ∧ WellFormed 1 .rbProduce := by
  decide

theorem witness_EncodeOfDecodeIsTheWord : decode 16 .m 0x00000F38 = .ok (.bsEdge 15 true .latching) := by decide

/-- The seven branches of R78, each at a word that reaches it. -/
theorem witness_DecoderFollowsItsPseudocode :
    decode 16 .m 0x00000009 = .error .illegalOp ∧ decode 16 .m 0x00000001 = .error .wrongPort ∧
    decode 16 .p 0x00000041 = .error .reserved ∧ decode 16 .p 0x00000101 = .error .reserved ∧
    decode 16 .m 0x00000027 = .error .reserved ∧ decode 16 .m 0x00000026 = .error .reserved ∧
    decode 16 .m 0x00001008 = .error .index := by decide

theorem witness_StepRunsTheDecodedInstruction :
    ∃ t, arrival (sendM 0x00000338 busy) = (.command, t) ∧
      decode t.params.N t.ports.active t.ports.cmd = .ok (.bsEdge 3 true .latching) := ⟨_, rfl, by decide⟩

/-- A turn of each port with a command to come, and with its stream exhausted, and a turn of the host. -/
theorem witness_PortsKeepTheirCommandOrder :
    (∃ t, step (sendP 1 [0x44] busy) = .next t) ∧ (sendP 1 [0x44] busy).turns = [.port .p] ∧
    (sendP 1 [0x44] busy).pQueue = [⟨1, [0x44]⟩] ∧
    (∃ t, step (sendM 2 busy) = .next t) ∧ (sendM 2 busy).turns = [.port .m] ∧ (sendM 2 busy).mQueue = [2] ∧
    (∃ t, step { busy with turns := [.port .p] } = .next t) ∧ (∃ t, step { busy with turns := [.port .m] } = .next t) ∧
    ∃ t, step { busy with turns := [.reset] } = .next t :=
  ⟨⟨_, rfl⟩, rfl, rfl, ⟨_, rfl⟩, rfl, rfl, ⟨_, rfl⟩, ⟨_, rfl⟩, _, rfl⟩

theorem witness_StepWithoutCommandIsIdle :
    arrival busy = (.idle, busy) ∧ arrival { busy with turns := [.port .p] } = (.idle, busy) ∧
    arrival { busy with turns := [.port .m] } = (.idle, busy) := by decide

theorem witness_ParametersNeverChange : ∃ t, step (sendM 2 busy) = .next t := ⟨_, rfl⟩

/-- A decoding fault of each code that decoding can raise. -/
theorem witness_DecodeFaultIsTaken :
    halted busy = false ∧ (arrival (sendM 0 busy)).1 = .command ∧ fetch (arrival (sendM 0 busy)).2 = .error .illegalOp ∧
    fetch (arrival (sendM 1 busy)).2 = .error .wrongPort ∧ fetch (arrival (sendM 0x102 busy)).2 = .error .reserved ∧
    fetch (arrival (sendM 0x1003 busy)).2 = .error .index := by decide

theorem witness_FaultEntryChangesOnlyFault :
    halted (sendM 0 busy) = false ∧ step (sendM 0 busy) = .next (nextState (sendM 0 busy)) ∧
      halted (nextState (sendM 0 busy)) = true := ⟨by decide, rfl, by decide⟩

theorem witness_UnassignedOperationsFault :
    (arrival (sendM 0x00000FF0 busy)).1 = .command ∧ halted (arrival (sendM 0x00000FF0 busy)).2 = false ∧
    ((arrival (sendM 0x00000FF0 busy)).2.ports.cmd.extractLsb' 0 4 = 0) ∧
    ((arrival (sendP 0x00000009 [0] busy)).2.ports.cmd.extractLsb' 0 4).toNat = 9 ∧
    ((arrival (sendM 0xFFFFFFFF busy)).2.ports.cmd.extractLsb' 0 4).toNat = 15 := by decide

theorem witness_HaltedBlockIgnoresCommands :
    halted faulted = true ∧ (arrival (sendM 2 faulted)).1 = .command ∧ (arrival (sendP 1 [0] faulted)).1 = .command := by
  decide

theorem witness_HaltedBlockIgnoresEveryInstruction : halted faulted = true := by decide

theorem witness_OnlyResetEndsAHalt : halted (sendM 2 faulted) = true ∧ .reset ∉ (sendM 2 faulted).turns := by decide

theorem witness_GoodEndMeansNoFaultBefore :
    .reset ∉ (sendM 2 busy).turns ∧ halted (after 1 (sendM 2 busy)) = false ∧ 0 ≤ 1 := by decide

theorem witness_GlobalResetTakesOneStep : { busy with turns := [.reset, .port .p] }.turns = [.reset, .port .p] := rfl

theorem witness_WrongPortFaults :
    halted (onM 1 busy) = false ∧ (onM 1 busy).ports.active ≠ Instr.rbProduce.op.port ∧
    halted (onP 2 [0] busy) = false ∧ (onP 2 [0] busy).ports.active ≠ Instr.rbConsume.op.port := by decide

/-- `RB_PRODUCE` on M, and the first and the last operation of M on P. -/
theorem witness_WordOnTheWrongPortFaults :
    halted busy = false ∧ (arrival (sendM 1 busy)).1 = .command ∧ (arrival (sendM 1 busy)).2.ports.active = .m ∧
    ((arrival (sendM 1 busy)).2.ports.cmd.extractLsb' 0 4).toNat = 1 ∧
    (arrival (sendP 2 [0] busy)).1 = .command ∧ (arrival (sendP 2 [0] busy)).2.ports.active = .p ∧
    ((arrival (sendP 2 [0] busy)).2.ports.cmd.extractLsb' 0 4).toNat = 2 ∧
    ((arrival (sendP 0xFF0000C8 [0] busy)).2.ports.cmd.extractLsb' 0 4).toNat = 8 := by decide

theorem witness_IndexOutOfRangeFaults :
    (Instr.bsSetPressed 16 true).index? = some 16 ∧ halted (onM 0x1014 busy) = false ∧
    (onM 0x1014 busy).ports.active = .m ∧ (onM 0x1014 busy).params.N ≤ 16 := by decide

theorem witness_ProduceStoresTheSnapshot :
    halted (onP 1 [0x44] busy) = false ∧ (onP 1 [0x44] busy).ports.active = .p ∧
    (onP 1 [0x44] busy).count ≠ (onP 1 [0x44] busy).params.D := by decide

theorem witness_ProduceIntoFullRingDrops :
    let s := onP 1 [0x44] (ring 0 0 3 [(0, [0x33]), (1, [0x11]), (2, [0x22])] none)
    halted s = false ∧ s.ports.active = .p ∧ s.count = s.params.D := by decide

theorem witness_ConsumeReturnsTheOldestSnapshot :
    halted (onM 2 busy) = false ∧ (onM 2 busy).ports.active = .m ∧ (onM 2 busy).count ≠ 0 ∧
    Slots.read (onM 2 busy).buf (((onM 2 busy).tail + 1) % (onM 2 busy).params.D) = some [0x33] := by decide

theorem witness_ConsumeFromEmptyRingReturnsNothing :
    halted (onM 2 State.reset) = false ∧ (onM 2 State.reset).ports.active = .m ∧ (onM 2 State.reset).count = 0 := by
  decide

theorem witness_ConsumeOfUnwrittenSlotFaults :
    let s := onM 2 (ring 1 0 1 [] none)
    halted s = false ∧ s.ports.active = .m ∧ s.count ≠ 0 ∧ Slots.read s.buf ((s.tail + 1) % s.params.D) = none := by decide

/-- The bits of a bit-set with one byte listed are 0 from the next byte on. -/
theorem bitGet_single (a : Nat) (x : Byte) (i : Nat) (h : 8 * (a + 1) ≤ i) : bitGet [(a, x)] i = false := by
  have : ¬ i / 8 = a := by omega
  simp [bitGet, Memory.read, Store.get, this]

/-- The busy ring satisfies the invariant, with a command served last on either port and one to come on each. -/
theorem busy_inv (act : Port) (w : Word) :
    StateInv { onP w [0x77] busy with
      ports := { (onP w [0x77] busy).ports with active := act }, pQueue := [⟨1, [0x44]⟩], mQueue := [2],
      turns := [.port .p, .port .m] } where
  head_lt := by show 0 < 3; decide
  tail_lt := by show 2 < 3; decide
  count_le := by show 1 ≤ 3; decide
  cursors := by show 0 = (2 + 1) % 3; decide
  buf_wf := by show Slots.wf busy.buf; decide
  buf_slots := by show ∀ c ∈ busy.buf, c.1 < 3 ∧ c.2.length = 1; decide
  live_written := by show ∀ k ∈ liveSlots busy, (Slots.read busy.buf k).isSome = true; decide
  rdsnap_width := by intro x h; injection h with h; subst h; rfl
  pressed_wf := by show Memory.wf busy.pressed; decide
  latched_wf := by show Memory.wf busy.latched; decide
  pressed_padding := fun i h => bitGet_single 0 0x20 i (by have : 16 ≤ i := h; omega)
  latched_padding := fun i h => bitGet_single 1 0x80 i (by have : 16 ≤ i := h; omega)
  fault_legal := .inl rfl
  events_index := by intro i h; simp [busy, onP] at h; subst h; show 15 < 16; decide
  snapIn_width := fun _ => rfl
  pQueue_width := by intro c h; simp at h; subst h; rfl

/-- A ring state satisfies the invariant when its cursors, its slots and its snapshots do. -/
theorem ring_inv (h t c : Nat) (b : Slots) (r : Option Snapshot)
    (hc : h < 3 ∧ t < 3 ∧ c ≤ 3 ∧ h = (t + c) % 3 ∧ Slots.wf b ∧ (∀ d ∈ b, d.1 < 3 ∧ d.2.length = 1) ∧
      ∀ k ∈ liveSlots (ring h t c b r), (Slots.read b k).isSome = true)
    (hr : ∀ x ∈ r, x.length = 1) : StateInv (ring h t c b r) where
  head_lt := hc.1
  tail_lt := hc.2.1
  count_le := hc.2.2.1
  cursors := hc.2.2.2.1
  buf_wf := hc.2.2.2.2.1
  buf_slots := hc.2.2.2.2.2.1
  live_written := hc.2.2.2.2.2.2
  rdsnap_width := hr
  pressed_wf := by show Memory.wf []; decide
  latched_wf := by show Memory.wf []; decide
  pressed_padding := fun _ _ => by simp [bitGet, Memory.read, Store.get, ring, State.reset]
  latched_padding := fun _ _ => by simp [bitGet, Memory.read, Store.get, ring, State.reset]
  fault_legal := .inl rfl
  events_index := by intro i h; simp [ring, State.reset] at h
  snapIn_width := by intro h; cases h
  pQueue_width := by intro c h; simp [ring, State.reset] at h

/-- Both clauses of the queue: a produce on P with room, a consume on M with a snapshot held. -/
theorem witness_RingIsAQueue :
    ∃ s t, StateInv s ∧ halted s = false ∧ s.ports.active = .p ∧ s.count ≠ s.params.D ∧ exec .rbProduce s = .next t ∧
    ∃ s' t', StateInv s' ∧ halted s' = false ∧ s'.ports.active = .m ∧ s'.count ≠ 0 ∧ exec .rbConsume s' = .next t' :=
  ⟨_, _, busy_inv .p 1, by decide, rfl, by decide, rfl, _, _, busy_inv .m 2, by decide, rfl, by decide, rfl⟩

theorem witness_ConsumerReceivesAcceptedSnapshotsInOrder :
    .reset ∉ [Turn.port .p, .port .m, .port .m] ∧
    (returnedIn 3 (State.start Config.build [⟨1, [0x55]⟩] [2, 2] [.port .p, .port .m, .port .m])) = [[0x55]] := by decide

theorem witness_CountIsAcceptedLessReturned :
    .reset ∉ [Turn.port .p, .port .m] ∧ (after 1 (State.start Config.build [⟨1, [0x55]⟩] [2] [.port .p, .port .m])).count = 1 := by
  decide

theorem witness_RingOfDepthOne : ({ D := 1, S := 1, N := 16 } : Params).D = 1 := rfl

/-- `RDSNAP` changes at a reset; a consume drives `M.SNAP_OUT`. -/
theorem witness_ReadSnapshotChangesOnlyAtAConsume :
    (nextState { busy with turns := [.reset] }).ports.snapOut = none ∧
    (nextState { busy with turns := [.reset] }).rdsnap ≠ busy.rdsnap ∧
    (nextState (sendM 2 busy)).ports.snapOut = some [0x33] := by decide

/-- The last legal index, 15 of 16, for GetPressedAnswersTheBit, GetLatchedAnswersTheBit, SetPressedWritesTheBit,
SetLatchedWritesTheBit and ResetIndexClearsBothBits. -/
theorem witness_button_statements :
    halted (onM 0 busy) = false ∧ (onM 0 busy).ports.active = .m ∧ (15#16).toNat < (onM 0 busy).params.N := by decide

theorem witness_EdgeWithoutChangeDoesNothing :
    halted (onM 0x518 busy) = false ∧ (onM 0x518 busy).ports.active = .m ∧ (5#16).toNat < (onM 0x518 busy).params.N ∧ bitGet (onM 0x518 busy).pressed (5#16).toNat = true := by decide

/-- An edge: a press of index 15, whose latch is 1, and a release of index 5. -/
theorem witness_EdgeRecordsAndToggles :
    halted (onM 0 busy) = false ∧ (onM 0 busy).ports.active = .m ∧ (15#16).toNat < (onM 0 busy).params.N ∧ bitGet (onM 0 busy).pressed (15#16).toNat ≠ true ∧
    bitGet (onM 0 busy).latched (15#16).toNat = true ∧ bitGet (onM 0 busy).pressed (5#16).toNat ≠ false ∧
    bitGet (onM 0 busy).latched (5#16).toNat = false := by decide

theorem witness_SecondEqualEdgeIsANoOp :
    halted (onM 0 busy) = false ∧ (onM 0 busy).ports.active = .m ∧ (15#16).toNat < (onM 0 busy).params.N ∧
    ∃ t, exec (.bsEdge 15 true .latching) (onM 0 busy) = .next t := ⟨by decide, rfl, by decide, _, rfl⟩

theorem witness_LatchFlipsOnlyOnALatchingPress :
    bitGet (execState (.bsEdge 15 true .latching) (onM 0 busy)).latched (15#16).toNat ≠
      bitGet (onM 0 busy).latched (15#16).toNat ∧ bitGet (onM 0 busy).pressed (15#16).toNat = false := by decide

theorem witness_LatchAlternatesOverPresses :
    halted (onM 0 busy) = false ∧ (onM 0 busy).ports.active = .m ∧ (14#16).toNat < (onM 0 busy).params.N ∧
    bitGet (onM 0 busy).pressed (14#16).toNat = false ∧ bitGet (onM 0 busy).latched (14#16).toNat = false := by decide

theorem witness_DirectWritesAreIdempotent :
    Memory.wf (onM 0 busy).pressed ∧ Memory.wf (onM 0 busy).latched ∧
    halted (execState (.bsResetIndex 15) (onM 0 busy)) = false := by decide

theorem witness_OnlyTheNamedIndexChanges :
    (Instr.bsResetIndex 5).index? = some 5 ∧ ∃ t, exec (.bsResetIndex 5) (onM 0x507 busy) = .next t ∧
      t.pressed ≠ busy.pressed := ⟨by decide, _, rfl, by decide⟩

theorem witness_EveryStepKeepsTheInvariant : ∃ s t, StateInv s ∧ step s = .next t := ⟨_, _, busy_inv .m 2, rfl⟩

theorem witness_InvariantHoldsAtReset :
    ∀ c ∈ [(⟨1, [0x44]⟩ : PCommand)], c.snapIn.length = Config.build.S := by decide

theorem witness_InstructionsWriteOnlyTheirState :
    ∃ t, exec .rbProduce (onP 1 [0x44] busy) = .next t ∧ t.head ≠ busy.head := ⟨_, rfl, by decide⟩

theorem witness_PortsTouchOnlyTheirState :
    (∃ u, arrival (sendP 1 [0x44] busy) = (.command, u) ∧ u.ports.active = .p) ∧
    (∃ u, arrival (sendM 2 busy) = (.command, u) ∧ u.ports.active = .m) ∧
    (∃ t, step (sendP 1 [0x44] busy) = .next t) ∧ ∃ t, step (sendM 2 busy) = .next t :=
  ⟨⟨_, rfl, rfl⟩, ⟨_, rfl, rfl⟩, ⟨_, rfl⟩, _, rfl⟩

theorem witness_EventsAreOnlyAppended :
    (∃ t, step (sendM 0x507 busy) = .next t ∧ t.ports.dbr = some 5) ∧ ∀ ts, (sendM 0x507 busy).turns ≠ .reset :: ts :=
  ⟨⟨_, rfl, by decide⟩, fun ts h => by injection h with h _; cases h⟩

/-- The three clauses: an empty ring at a cursor of 2, the full ring of T-RB-15, and a ring with one snapshot. -/
theorem witness_BothOrdersOfASimultaneousPair :
    (∃ s, StateInv s ∧ halted s = false ∧ s.count = 0 ∧ s.head = 2) ∧
    (∃ s, StateInv s ∧ halted s = false ∧ s.count = s.params.D) ∧
    ∃ s, StateInv s ∧ halted s = false ∧ 0 < s.count ∧ s.count < s.params.D :=
  ⟨⟨_, ring_inv 2 2 0 [(2, [0x22])] (some [0x22]) (by decide) (by decide), by decide⟩,
    ⟨_, ring_inv 0 0 3 [(0, [0x33]), (1, [0x11]), (2, [0x22])] none (by decide) (by decide), by decide⟩,
    _, ring_inv 0 2 1 [(0, [0x33])] none (by decide) (by decide), by decide⟩

/-- A step that accepts a snapshot and one that returns one. -/
theorem witness_EveryStepKeepsTheQueue :
    ∃ s t, StateInv s ∧ step s = .next t ∧ (∀ ts, s.turns ≠ .reset :: ts) ∧ acceptedAt s = some [0x44] ∧
      (nextState (sendM 2 busy)).ports.snapOut = some [0x33] :=
  ⟨_, _, busy_inv .m 2, rfl, fun _ h => (by injection h with h _; cases h), by decide, by decide⟩

theorem witness_ProduceAndButtonCommandsCommute :
    halted busy = false ∧ decode busy.params.N .m 0x00000F38 = .ok (.bsEdge 15 true .latching) ∧
    (Instr.bsEdge 15 true .latching).index? = some 15 := by decide

end Sys2Proof.Tests
end

section
/-! PROOFS. The derived widths of a build (spec/00_scope.md R9): `ceilLog2` is the least exponent whose power of two reaches
its argument, so a field of `max 1 (ceilLog2 n)` bits is the narrowest with `n` values. -/

namespace Sys2Proof

theorem ceilLog2_le_iff {n k : Nat} : ceilLog2 n ≤ k ↔ n ≤ 2 ^ k := by
  unfold ceilLog2
  split
  case isTrue hn =>
    have hpow : 1 ≤ 2 ^ k := Nat.one_le_two_pow
    omega
  case isFalse hn =>
    have hlog : (n - 1).log2 < k ↔ n - 1 < 2 ^ k := Nat.log2_lt (by omega)
    omega

theorem le_two_pow_max_one_ceilLog2 (n : Nat) : n ≤ 2 ^ max 1 (ceilLog2 n) :=
  ceilLog2_le_iff.mp (Nat.le_max_right ..)

theorem two_pow_pred_max_one_ceilLog2_lt {n : Nat} (h : 1 < max 1 (ceilLog2 n)) :
    2 ^ (max 1 (ceilLog2 n) - 1) < n := by
  have hnarrower : ¬ ceilLog2 n ≤ max 1 (ceilLog2 n) - 1 := by omega
  exact Nat.lt_of_not_le (mt ceilLog2_le_iff.mpr hnarrower)

theorem Params.N_le_bits_NBY (cfg : Params) : cfg.N ≤ 8 * cfg.NBY := by
  unfold Params.NBY
  omega

theorem Params.bits_NBY_lt (cfg : Params) : 8 * cfg.NBY < cfg.N + 8 := by
  unfold Params.NBY
  omega

/-- Settles O58: each cursor width is an instance of the two facts about `max 1 (ceilLog2 n)`, at `D` values for `CW` and
at `D + 1` for `KW`; the index width is R8's bound on `N`. -/
theorem widthsHoldTheirRanges : Obligations.WidthsHoldTheirRanges := fun cfg =>
  ⟨le_two_pow_max_one_ceilLog2 cfg.D, le_two_pow_max_one_ceilLog2 (cfg.D + 1),
    two_pow_pred_max_one_ceilLog2_lt, two_pow_pred_max_one_ceilLog2_lt,
    Nat.le_max_left .., Nat.le_max_left .., cfg.N_le_bits_NBY, cfg.bits_NBY_lt, cfg.hN.2⟩

end Sys2Proof
end

section
/-! PROOFS. What a command can do to the state, said once for every instruction and every command step: it answers, it
takes a fault, or it makes one of the six updates of the table of spec/10_state.md R36, on its own port and at a legal
index. -/

namespace Sys2Proof.Machine

/-- The update of an accepted produce (R90): the snapshot is written to the slot after `HEAD` and counted. -/
abbrev State.pushed (s : State) (x : Snapshot) : State :=
  { s with head := (s.head + 1) % s.params.D
           buf := Slots.write s.buf ((s.head + 1) % s.params.D) x
           count := s.count + 1 }

/-- The update of a consume that returns `x` (R93): `TAIL` moves on, and `x` is copied and uncounted. -/
abbrev State.popped (s : State) (x : Snapshot) : State :=
  { s with tail := (s.tail + 1) % s.params.D
           rdsnap := some x
           count := s.count - 1 }

/-- `CommandEffect s o t`: a command served in `s` may leave `t`. `o` is the operation whose update of R36 was made, and
`none` where the command only answers or faults. -/
inductive CommandEffect (s : State) : Option Op → State → Prop
  /-- A halted block, a read, a dropped produce, an empty consume, an edge that is none. -/
  | answered (r : Response) : CommandEffect s none (respond r s)
  | faulted (c : Fault) : CommandEffect s none (raise c s)
  | produced : s.ports.active = .p → s.count ≠ s.params.D →
      CommandEffect s (some .rbProduce) (respond {} (s.pushed s.ports.snapIn))
  | consumed (x : Snapshot) : s.ports.active = .m → s.count ≠ 0 →
      Slots.read s.buf ((s.tail + 1) % s.params.D) = some x →
      CommandEffect s (some .rbConsume) (respondSnap { present := true } x (s.popped x))
  /-- `BS_SET_PRESSED`, and a `BS_EDGE` that records an edge and keeps the latch. -/
  | pressedWritten (op : Op) (r : Response) (i : Nat) (b : Bool) : op = .bsSetPressed ∨ op = .bsEdge →
      s.ports.active = .m → i < s.params.N →
      CommandEffect s (some op) (respond r { s with pressed := bitPut s.pressed i b })
  | latchedWritten (i : Nat) (b : Bool) : s.ports.active = .m → i < s.params.N →
      CommandEffect s (some .bsSetLatched) (respond {} { s with latched := bitPut s.latched i b })
  /-- A latching press. -/
  | latchToggled (r : Response) (i : Nat) : s.ports.active = .m → i < s.params.N →
      CommandEffect s (some .bsEdge)
        (respond r { s with pressed := bitPut s.pressed i true
                            latched := bitPut s.latched i (!bitGet s.latched i) })
  | indexReset (i : Nat) : s.ports.active = .m → i < s.params.N →
      CommandEffect s (some .bsResetIndex)
        (respondDbr {} i { s with pressed := bitPut s.pressed i false
                                  latched := bitPut s.latched i false })

/-- A command of operation `op` leaves `t`, with the update of no other operation. -/
def ServedAs (op : Op) (s t : State) : Prop := ∃ o, CommandEffect s o t ∧ ∀ q ∈ o, q = op

section
variable {s t : State} {o : Option Op} {op : Op}

theorem ServedAs.answered (op : Op) (r : Response) (s : State) : ServedAs op s (respond r s) :=
  ⟨none, .answered r, by simp⟩

theorem ServedAs.faulted (op : Op) (c : Fault) (s : State) : ServedAs op s (raise c s) :=
  ⟨none, .faulted c, by simp⟩

theorem CommandEffect.servedAs (h : CommandEffect s (some op) t) : ServedAs op s t :=
  ⟨some op, h, by simp⟩

/-! ## Every command has such an effect -/

theorem servedAs_produceEffect (hp : s.ports.active = .p) : ServedAs .rbProduce s (produceEffect s) := by
  rcases produceEffect_cases s with ⟨_, e⟩ | ⟨hroom, e⟩ <;> rw [e]
  · exact .answered ..
  · exact (CommandEffect.produced hp hroom).servedAs

theorem servedAs_consumeEffect (hm : s.ports.active = .m) : ServedAs .rbConsume s (consumeEffect s) := by
  rcases consumeEffect_cases s with ⟨_, e⟩ | ⟨_, _, e⟩ | ⟨hheld, x, hread, e⟩ <;> rw [e]
  · exact .answered ..
  · exact .faulted ..
  · exact (CommandEffect.consumed x hm hheld hread).servedAs

theorem servedAs_edgeEffect (v : Bool) (l : Behaviour) {i : Nat} (hm : s.ports.active = .m) (hi : i < s.params.N) :
    ServedAs .bsEdge s (edgeEffect v l i s) := by
  rcases edgeEffect_cases v l i s with ⟨_, e⟩ | ⟨_, _, _, e⟩ | ⟨_, _, _, e⟩ | ⟨_, _, e⟩ <;> rw [e]
  · exact .answered ..
  · exact (CommandEffect.latchToggled _ i hm hi).servedAs
  · exact (CommandEffect.pressedWritten .bsEdge _ i false (.inr rfl) hm hi).servedAs
  · exact (CommandEffect.pressedWritten .bsEdge _ i v (.inr rfl) hm hi).servedAs

theorem servedAs_command {effect : State → State}
    (h : s.ports.active = op.port → ServedAs op s (effect s)) : ServedAs op s (command op effect s) := by
  rcases command_cases op effect s with ⟨_, e⟩ | ⟨_, hport, e⟩ | ⟨_, _, e⟩ <;> rw [e]
  · exact .answered ..
  · exact h hport
  · exact .faulted ..

theorem servedAs_buttonCommand {idx : BitVec 16} {effect : Nat → State → State}
    (h : s.ports.active = op.port → idx.toNat < s.params.N → ServedAs op s (effect idx.toNat s)) :
    ServedAs op s (buttonCommand op idx effect s) := by
  rcases buttonCommand_cases op idx effect s with ⟨_, e⟩ | ⟨_, _, e⟩ | ⟨_, _, _, e⟩ | ⟨_, hport, hi, e⟩ <;> rw [e]
  · exact .answered ..
  · exact .faulted ..
  · exact .faulted ..
  · exact h hport hi

/-- Every instruction only answers or faults, or makes the update of its own operation. -/
theorem exec_servedAs {i : Instr} (h : exec i s = .next t) : ServedAs i.op s t := by
  cases i <;> cases h
  case rbProduce => exact servedAs_command servedAs_produceEffect
  case rbConsume => exact servedAs_command servedAs_consumeEffect
  case bsGetPressed idx => exact servedAs_buttonCommand fun _ _ => .answered ..
  case bsSetPressed idx v =>
    exact servedAs_buttonCommand fun hm hi => (CommandEffect.pressedWritten _ {} _ v (.inl rfl) hm hi).servedAs
  case bsGetLatched idx => exact servedAs_buttonCommand fun _ _ => .answered ..
  case bsSetLatched idx v =>
    exact servedAs_buttonCommand fun hm hi => (CommandEffect.latchedWritten _ v hm hi).servedAs
  case bsResetIndex idx =>
    exact servedAs_buttonCommand fun hm hi => (CommandEffect.indexReset _ hm hi).servedAs
  case bsEdge idx v l => exact servedAs_buttonCommand (servedAs_edgeEffect v l)

/-- A command step has a command's effect, whether the word decodes or not (R147). -/
theorem commandStep_effect (h : commandStep s = .next t) : ∃ o, CommandEffect s o t := by
  rcases commandStep_cases s with ⟨_, e⟩ | ⟨_, c, _, e⟩ | ⟨_, i, _, e⟩ <;> rw [e] at h
  · cases h
    exact ⟨none, .answered _⟩
  · cases h
    exact ⟨none, .faulted c⟩
  · obtain ⟨o, heffect, _⟩ := exec_servedAs h
    exact ⟨o, heffect⟩

/-- A step is idle, the global reset, or a command's effect on the state the command arrives in. -/
theorem step_effect (h : step s = .next t) :
    (∃ u, arrival s = (.idle, u) ∧ t = idleStep u) ∨
    (∃ u, arrival s = (.reset, u) ∧ t = globalReset u) ∨
    (∃ u o, arrival s = (.command, u) ∧ CommandEffect u o t) := by
  rcases step_cases s with ⟨u, ha, e⟩ | ⟨u, ha, e⟩ | ⟨u, ha, e⟩ <;> rw [e] at h
  · cases h
    exact .inl ⟨u, ha, rfl⟩
  · cases h
    exact .inr (.inl ⟨u, ha, rfl⟩)
  · obtain ⟨o, heffect⟩ := commandStep_effect h
    exact .inr (.inr ⟨u, o, ha, heffect⟩)

/-! ## The table of R36: who writes what -/

theorem CommandEffect.port_eq (h : CommandEffect s (some op) t) : s.ports.active = op.port := by
  cases h with
  | pressedWritten _ _ _ _ hop hm _ => rcases hop with rfl | rfl <;> exact hm
  | produced hp _ => exact hp
  | consumed _ hm _ _ => exact hm
  | latchedWritten _ _ hm _ => exact hm
  | latchToggled _ _ hm _ => exact hm
  | indexReset _ hm _ => exact hm

theorem CommandEffect.frame (h : CommandEffect s o t) :
    t.params = s.params ∧ t.pQueue = s.pQueue ∧ t.mQueue = s.mQueue ∧ t.turns = s.turns := by
  cases h <;> exact ⟨rfl, rfl, rfl, rfl⟩

theorem CommandEffect.writer_of_head_buf (h : CommandEffect s o t) (hne : t.head ≠ s.head ∨ t.buf ≠ s.buf) :
    o = some .rbProduce := by
  cases h with
  | produced => rfl
  | _ => exact absurd hne (by simp)

theorem CommandEffect.writer_of_tail_rdsnap (h : CommandEffect s o t) (hne : t.tail ≠ s.tail ∨ t.rdsnap ≠ s.rdsnap) :
    o = some .rbConsume := by
  cases h with
  | consumed => rfl
  | _ => exact absurd hne (by simp)

theorem CommandEffect.writer_of_count (h : CommandEffect s o t) (hne : t.count ≠ s.count) :
    o = some .rbProduce ∨ o = some .rbConsume := by
  cases h with
  | produced => exact .inl rfl
  | consumed => exact .inr rfl
  | _ => exact absurd rfl hne

theorem CommandEffect.writer_of_pressed (h : CommandEffect s o t) (hne : t.pressed ≠ s.pressed) :
    o = some .bsSetPressed ∨ o = some .bsResetIndex ∨ o = some .bsEdge := by
  cases h with
  | pressedWritten _ _ _ _ hop => rcases hop with rfl | rfl <;> simp
  | latchToggled => exact .inr (.inr rfl)
  | indexReset => exact .inr (.inl rfl)
  | _ => exact absurd rfl hne

theorem CommandEffect.writer_of_latched (h : CommandEffect s o t) (hne : t.latched ≠ s.latched) :
    o = some .bsSetLatched ∨ o = some .bsResetIndex ∨ o = some .bsEdge := by
  cases h with
  | latchedWritten => exact .inl rfl
  | latchToggled => exact .inr (.inr rfl)
  | indexReset => exact .inr (.inl rfl)
  | _ => exact absurd rfl hne

theorem CommandEffect.writer_of_events (h : CommandEffect s o t) (hne : t.events ≠ s.events) :
    o = some .bsResetIndex := by
  cases h with
  | indexReset => rfl
  | _ => exact absurd rfl hne

/-- A command appends the event it drives on port `DBR`, or nothing (R35). -/
theorem CommandEffect.events_eq (h : CommandEffect s o t) :
    t.events = s.events ++ t.ports.dbr.toList.map Event.dbr := by
  cases h <;> simp

theorem CommandEffect.frame_of_p (h : CommandEffect s o t) (hp : s.ports.active = .p) :
    t.tail = s.tail ∧ t.rdsnap = s.rdsnap ∧ t.pressed = s.pressed ∧ t.latched = s.latched ∧ t.events = s.events := by
  cases h with
  | answered | faulted | produced => exact ⟨rfl, rfl, rfl, rfl, rfl⟩
  | consumed _ hm | pressedWritten _ _ _ _ _ hm | latchedWritten _ _ hm | latchToggled _ _ hm | indexReset _ hm =>
    exact absurd (hp.symm.trans hm) (by decide)

theorem CommandEffect.frame_of_m (h : CommandEffect s o t) (hm : s.ports.active = .m) :
    t.head = s.head ∧ t.buf = s.buf := by
  cases h with
  | produced hp => exact absurd (hp.symm.trans hm) (by decide)
  | _ => exact ⟨rfl, rfl⟩

/-! ## What arrives before the command -/

theorem step_effect_of_command {u : State} (ha : arrival s = (.command, u)) (h : step s = .next t) :
    ∃ o, CommandEffect u o t := by
  rcases step_effect h with ⟨_, ha', _⟩ | ⟨_, ha', _⟩ | ⟨_, o, ha', heffect⟩ <;> rw [ha] at ha' <;> cases ha'
  exact ⟨o, heffect⟩

theorem turns_of_arrival_reset {u : State} (ha : arrival s = (.reset, u)) : ∃ ts, s.turns = .reset :: ts := by
  rcases arrival_cases s with
      ⟨_, e⟩ | ⟨ts, hts, e⟩ | ⟨_, _, _, e⟩ | ⟨_, _, _, e⟩ | ⟨_, _, _, _, _, e⟩ | ⟨_, _, _, _, _, e⟩ <;>
    rw [ha] at e <;> cases e
  exact ⟨ts, hts⟩

end

/-- Settles O54: the update an instruction makes is that of its own operation, and each element's writers are read off
`CommandEffect`. -/
theorem instructionsWriteOnlyTheirState : Obligations.InstructionsWriteOnlyTheirState := by
  intro i s t h
  obtain ⟨o, heffect, hown⟩ := exec_servedAs h
  have op_eq : ∀ {q}, o = some q → i.op = q := fun e => (hown _ e).symm
  exact ⟨fun hne => op_eq (heffect.writer_of_head_buf hne), fun hne => op_eq (heffect.writer_of_tail_rdsnap hne),
    fun hne => (heffect.writer_of_count hne).imp op_eq op_eq,
    fun hne => (heffect.writer_of_pressed hne).imp op_eq (.imp op_eq op_eq),
    fun hne => (heffect.writer_of_latched hne).imp op_eq (.imp op_eq op_eq),
    fun hne => op_eq (heffect.writer_of_events hne), heffect.frame⟩

/-- Settles O55: an arrival leaves the block alone, and an update belongs to the operation's own port. -/
theorem portsTouchOnlyTheirState : Obligations.PortsTouchOnlyTheirState := by
  intro s t u ha h
  obtain ⟨o, heffect⟩ := step_effect_of_command ha h
  obtain ⟨hhead, htail, -, hbuf, hrdsnap, hpressed, hlatched, -, hevents⟩ := Block.mk.inj (arrival_frame ha).1
  rw [← hhead, ← htail, ← hbuf, ← hrdsnap, ← hpressed, ← hlatched, ← hevents]
  exact ⟨heffect.frame_of_p, heffect.frame_of_m⟩

/-- Settles O56: only a command can append, and it appends what it drives on `DBR`. -/
theorem eventsAreOnlyAppended : Obligations.EventsAreOnlyAppended := by
  intro s t h hno
  have events_eq : ∀ {a u}, arrival s = (a, u) → u.events = s.events :=
    fun ha => congrArg Block.events (arrival_frame ha).1
  rcases step_effect h with ⟨u, ha, rfl⟩ | ⟨u, ha, rfl⟩ | ⟨u, o, ha, heffect⟩
  · simp [events_eq ha]
  · obtain ⟨ts, hts⟩ := turns_of_arrival_reset ha
    exact absurd hts (hno ts)
  · rw [heffect.events_eq, events_eq ha]

end Sys2Proof.Machine
end

section
/-! PROOFS. The values after reset (spec/10_state.md R40) and the layout of `FAULT` (R34). -/

namespace Sys2Proof.Machine

/-! ## Empty storage -/

@[simp] theorem Slots.read_nil (k : Nat) : Slots.read [] k = none := rfl

@[simp] theorem bitGet_nil (i : Nat) : bitGet [] i = false := by
  simp [bitGet, Memory.read, Store.get]

theorem Memory.wf_nil : Memory.wf [] := ⟨.nil, by simp⟩

/-- Settles O21: unlisted slots hold `UNSPEC` and unlisted bits are 0; `State.reset` is the build of `Config.build`. -/
theorem resetStateHasTheListedValues : Obligations.ResetStateHasTheListedValues :=
  ⟨fun _ => ⟨rfl, rfl, rfl, Slots.read_nil, rfl, bitGet_nil, bitGet_nil, rfl, rfl⟩, Config.build, rfl⟩

/-! ## The `FAULT` register -/

theorem toNat_append_eq_add {m n : Nat} (x : BitVec m) (y : BitVec n) :
    (x ++ y).toNat = x.toNat * 2 ^ n + y.toNat := by
  rw [BitVec.toNat_append, ← Nat.shiftLeft_add_eq_or_of_lt y.isLt, Nat.shiftLeft_eq]

/-- Settles O22: the value of a concatenation is a sum of its fields at their weights. -/
theorem faultRegisterLayout : Obligations.FaultRegisterLayout := by
  intro c port w
  have hport : (BitVec.ofBool (portBit port)).toNat * 16 = if port = .p then 16 else 0 := by cases port <;> rfl
  rw [← hport]
  simp only [packFault, toNat_append_eq_add, BitVec.toNat_ofNat]
  omega

end Sys2Proof.Machine
end

section
/-! PROOFS. The invariant of the state (spec/10_state.md R33, R34, R37 to R39): it holds at reset, each update of the state
keeps it, and so does every step. -/

namespace Sys2Proof.Machine

section
variable {s t : State}

/-! ## The live slots (R39) -/

/-- A snapshot counted in at the end takes the slot after the live ones. -/
theorem liveSlots_pushed (s : State) (x : Snapshot) :
    liveSlots (s.pushed x) = liveSlots s ++ [(s.tail + 1 + s.count) % s.params.D] := by
  simp [liveSlots, List.range_succ]

/-- The oldest live slot is the one after `TAIL`, and the rest are live once `TAIL` has moved there. -/
theorem liveSlots_eq_cons_popped {s : State} (hheld : s.count ≠ 0) (x : Snapshot) :
    liveSlots s = (s.tail + 1) % s.params.D :: liveSlots (s.popped x) := by
  have slot_succ : ∀ j, (s.tail + 1 + (j + 1)) % s.params.D = ((s.tail + 1) % s.params.D + 1 + j) % s.params.D := by
    intro j
    rw [Nat.add_assoc _ 1 j, Nat.mod_add_mod]
    congr 1
    omega
  obtain ⟨n, hn⟩ := Nat.exists_eq_succ_of_ne_zero hheld
  simp [liveSlots, hn, List.range_succ_eq_map, slot_succ]

/-- The slot a produce writes is the one after the live ones (R38, R39). -/
theorem StateInv.produce_slot_eq (h : StateInv s) :
    (s.head + 1) % s.params.D = (s.tail + 1 + s.count) % s.params.D := by
  rw [h.cursors, Nat.mod_add_mod]
  congr 1
  omega

/-! ## Each update keeps the invariant -/

theorem StateInv.with_ports (h : StateInv s) {io : Ports} (hactive : io.active = s.ports.active)
    (hsnapIn : io.snapIn = s.ports.snapIn) : StateInv { s with ports := io } :=
  { h with snapIn_width := fun hp => hsnapIn ▸ h.snapIn_width (hactive ▸ hp) }

theorem StateInv.respond (h : StateInv s) (r : Response) : StateInv (respond r s) :=
  h.with_ports (by simp) (by simp)

theorem StateInv.idleStep (h : StateInv s) : StateInv (idleStep s) :=
  h.with_ports (by simp) (by simp)

theorem StateInv.with_pressed (h : StateInv s) {i : Nat} (hi : i < s.params.N) (b : Bool) :
    StateInv { s with pressed := bitPut s.pressed i b } :=
  { h with
    pressed_wf := bitPut_wf h.pressed_wf i b
    pressed_padding := fun j hj => by
      have hne : j ≠ i := by have : s.params.N ≤ j := hj; omega
      simpa [bitGet_bitPut, hne] using h.pressed_padding j hj }

theorem StateInv.with_latched (h : StateInv s) {i : Nat} (hi : i < s.params.N) (b : Bool) :
    StateInv { s with latched := bitPut s.latched i b } :=
  { h with
    latched_wf := bitPut_wf h.latched_wf i b
    latched_padding := fun j hj => by
      have hne : j ≠ i := by have : s.params.N ≤ j := hj; omega
      simpa [bitGet_bitPut, hne] using h.latched_padding j hj }

theorem faultLegal_packFault (c : Fault) (port : Port) (w : Word) : FaultLegal (packFault c port w) := by
  have hcode : 1 ≤ c.code.toNat ∧ c.code.toNat ≤ 5 := by cases c <;> decide
  exact .inr (by simpa using hcode)

theorem StateInv.raise (h : StateInv s) (c : Fault) : StateInv (raise c s) := by
  have hfault : StateInv { s with fault := packFault c s.ports.active s.ports.cmd } :=
    { h with fault_legal := faultLegal_packFault .. }
  exact hfault.respond _

theorem StateInv.respondDbr (h : StateInv s) {i : Nat} (hi : i < s.params.N) (r : Response) :
    StateInv (respondDbr r i s) := by
  have hevents : StateInv { s with events := s.events ++ [.dbr i] } :=
    { h with
      events_index := fun j hj => by
        rcases List.mem_append.mp hj with hj | hj
        · exact h.events_index j hj
        · simp only [List.mem_singleton, Event.dbr.injEq] at hj
          exact hj ▸ hi }
  exact hevents.with_ports (by simp) (by simp)

/-- An accepted produce: the written slot joins the live ones at the end. -/
theorem StateInv.push (h : StateInv s) {x : Snapshot} (hx : x.length = s.params.S) (hroom : s.count ≠ s.params.D) :
    StateInv (s.pushed x) :=
  have slot_lt : (s.head + 1) % s.params.D < s.params.D := Nat.mod_lt _ s.params.hD.1
  { h with
    head_lt := slot_lt
    count_le := Nat.lt_of_le_of_ne h.count_le hroom
    cursors := by
      show (s.head + 1) % s.params.D = (s.tail + (s.count + 1)) % s.params.D
      rw [h.produce_slot_eq, Nat.add_right_comm, Nat.add_assoc]
    buf_wf := Slots.write_wf h.buf_wf _ _
    buf_slots := fun c hc => by
      rcases Slots.mem_write hc with rfl | hc
      · exact ⟨slot_lt, hx⟩
      · exact h.buf_slots c hc
    live_written := fun k hk => by
      rw [liveSlots_pushed, List.mem_append, List.mem_singleton, ← h.produce_slot_eq] at hk
      rw [Slots.read_write]
      split
      · rfl
      · next hne => exact h.live_written k (hk.resolve_right hne) }

/-- A successful consume: the oldest slot leaves the live ones, and its snapshot has `S` bytes. -/
theorem StateInv.pop (h : StateInv s) {x : Snapshot} (hheld : s.count ≠ 0)
    (hread : Slots.read s.buf ((s.tail + 1) % s.params.D) = some x) :
    StateInv (s.popped x) :=
  { h with
    tail_lt := Nat.mod_lt _ s.params.hD.1
    count_le := (Nat.sub_le ..).trans h.count_le
    cursors := by
      show s.head = ((s.tail + 1) % s.params.D + (s.count - 1)) % s.params.D
      rw [h.cursors, Nat.mod_add_mod]
      congr 1
      omega
    live_written := fun k hk => by
      refine h.live_written k ?_
      rw [liveSlots_eq_cons_popped hheld x]
      exact List.mem_cons_of_mem _ hk
    rdsnap_width := fun y hy => by
      cases hy
      exact (h.buf_slots _ (Slots.mem_of_read hread)).2 }

/-! ## Arrivals, commands and the reset keep the invariant -/

theorem StateInv.arrival {a : Arrival} (h : StateInv s) (ha : arrival s = (a, t)) : StateInv t := by
  rcases arrival_cases s with
      ⟨_, e⟩ | ⟨_, _, e⟩ | ⟨_, _, _, e⟩ | ⟨_, _, _, e⟩ | ⟨_, c, cs, _, hqueue, e⟩ | ⟨_, _, _, _, _, e⟩ <;>
    rw [ha] at e <;> cases e
  · exact h
  · exact { h with }
  · exact { h with }
  · exact { h with }
  · have hwidth : ∀ d ∈ c :: cs, d.snapIn.length = s.params.S := hqueue ▸ h.pQueue_width
    exact { h with
      snapIn_width := fun _ => hwidth c List.mem_cons_self
      pQueue_width := fun d hd => hwidth d (List.mem_cons_of_mem _ hd) }
  · exact { h with snapIn_width := nofun }

theorem CommandEffect.keeps_stateInv {o : Option Op} (h : CommandEffect s o t) (hs : StateInv s) : StateInv t := by
  cases h with
  | answered r => exact hs.respond r
  | faulted c => exact hs.raise c
  | produced hp hroom => exact (hs.push (hs.snapIn_width hp) hroom).respond _
  | consumed x _ hheld hread => exact (hs.pop hheld hread).with_ports (by simp) (by simp)
  | pressedWritten _ r i b _ _ hi => exact (hs.with_pressed hi b).respond r
  | latchedWritten i b _ hi => exact (hs.with_latched hi b).respond _
  | latchToggled r i _ hi => exact ((hs.with_pressed hi true).with_latched hi _).respond r
  | indexReset i _ hi => exact ((hs.with_pressed hi false).with_latched hi false).respondDbr hi _

end

theorem stateInv_start (cfg : Params) {pq : List PCommand} (mq : List Word) (ts : List Turn)
    (hpq : ∀ c ∈ pq, c.snapIn.length = cfg.S) : StateInv (State.start cfg pq mq ts) where
  head_lt := cfg.hD.1
  tail_lt := cfg.hD.1
  count_le := Nat.zero_le _
  cursors := (Nat.zero_mod _).symm
  buf_wf := .nil
  buf_slots := nofun
  live_written := nofun
  rdsnap_width := nofun
  pressed_wf := Memory.wf_nil
  latched_wf := Memory.wf_nil
  pressed_padding := fun i _ => bitGet_nil i
  latched_padding := fun i _ => bitGet_nil i
  fault_legal := .inl rfl
  events_index := nofun
  snapIn_width := nofun
  pQueue_width := hpq

/-- Settles O53: `State.reset` is the start of `Config.build` with no command to come. -/
theorem invariantHoldsAtReset : Obligations.InvariantHoldsAtReset :=
  ⟨fun cfg _ mq ts hpq => stateInv_start cfg mq ts hpq, stateInv_start Config.build [] [] nofun⟩

/-- Settles O52: the global reset starts the build again, with the commands still to come; every other step is an arrival
and then the idle step or a command's effect, each of which keeps the invariant. -/
theorem everyStepKeepsTheInvariant : Obligations.EveryStepKeepsTheInvariant := by
  intro s t hs h
  rcases step_effect h with ⟨u, ha, rfl⟩ | ⟨u, ha, rfl⟩ | ⟨u, o, ha, heffect⟩
  · exact (hs.arrival ha).idleStep
  · exact stateInv_start u.params u.mQueue u.turns (hs.arrival ha).pQueue_width
  · exact heffect.keeps_stateInv (hs.arrival ha)

/-! ## Every reachable state -/

/-- What holds in a state and is kept by every step holds after any number of steps. -/
theorem after_induction {P : State → Prop} (hstep : ∀ s t, P s → step s = .next t → P t) :
    ∀ (k : Nat) (s : State), P s → P (after k s)
  | 0, _, hs => hs
  | k + 1, s, hs => by
    refine after_induction hstep k (nextState s) ?_
    unfold nextState
    split
    · next h => exact hstep s _ hs h
    · exact hs
    · exact hs

theorem step_params {s t : State} (h : step s = .next t) : t.params = s.params := by
  rcases step_effect h with ⟨u, ha, rfl⟩ | ⟨u, ha, rfl⟩ | ⟨u, o, ha, heffect⟩
  · exact (arrival_frame ha).2
  · exact (arrival_frame ha).2
  · exact heffect.frame.1.trans (arrival_frame ha).2

theorem CommandEffect.count_le {s t : State} {o : Option Op} (h : CommandEffect s o t)
    (hs : s.count ≤ s.params.D) : t.count ≤ s.params.D := by
  cases h with
  | produced _ hroom => exact Nat.lt_of_le_of_ne hs hroom
  | consumed => exact (Nat.sub_le ..).trans hs
  | _ => exact hs

/-- `COUNT` stays within the depth whatever the widths of the snapshots presented: no other part of `StateInv` is needed. -/
theorem step_count_le {s t : State} (hs : s.count ≤ s.params.D) (h : step s = .next t) : t.count ≤ s.params.D := by
  rcases step_effect h with ⟨u, ha, rfl⟩ | ⟨u, ha, rfl⟩ | ⟨u, o, ha, heffect⟩
  · have hcount : u.count = s.count := congrArg Block.count (arrival_frame ha).1
    simpa [hcount] using hs
  · exact Nat.zero_le _
  · have hcount : u.count = s.count := congrArg Block.count (arrival_frame ha).1
    have hparams := (arrival_frame ha).2
    rw [← hcount, ← hparams] at hs
    rw [← hparams]
    exact heffect.count_le hs

/-- Settles O35: a run keeps the parameters, and `COUNT` within their depth. -/
theorem countNeverExceedsDepth : Obligations.CountNeverExceedsDepth := by
  intro cfg pq mq ts k
  have hrun : (after k (State.start cfg pq mq ts)).params = cfg ∧ (after k (State.start cfg pq mq ts)).count ≤ cfg.D := by
    refine after_induction (P := fun s => s.params = cfg ∧ s.count ≤ cfg.D) ?_ k _ ⟨rfl, Nat.zero_le _⟩
    rintro s t ⟨rfl, hs⟩ h
    exact ⟨step_params h, step_count_le hs h⟩
  obtain ⟨hparams, hcount⟩ := hrun
  exact ⟨Nat.zero_le _, by rwa [hparams], hparams⟩

end Sys2Proof.Machine
end

section
/-! PROOFS. A step takes one turn and serves one command of the turn's port (spec/20_memory.md R59, R62): what arrives in
a turn, the streams a step leaves, and that every step answers a next state. -/

namespace Sys2Proof.Machine

/-- `s` with the command `c` taken from port P's stream and standing on that port. -/
abbrev State.servingP (s : State) (ts : List Turn) (c : PCommand) (cs : List PCommand) : State :=
  { s with turns := ts, pQueue := cs, ports := { s.ports with active := .p, cmd := c.cmd, snapIn := c.snapIn } }

/-- `s` with the word `w` taken from port M's stream and standing on that port. -/
abbrev State.servingM (s : State) (ts : List Turn) (w : Word) (ws : List Word) : State :=
  { s with turns := ts, mQueue := ws, ports := { s.ports with active := .m, cmd := w } }

section
variable {s t u : State} {a : Arrival} {ts : List Turn}

/-! ## What arrives in a turn -/

theorem arrival_of_p {c : PCommand} {cs : List PCommand} (hturn : s.turns = .port .p :: ts) (hqueue : s.pQueue = c :: cs) :
    arrival s = (.command, s.servingP ts c cs) := by
  simp [arrival, hturn, hqueue]

theorem arrival_of_m {w : Word} {ws : List Word} (hturn : s.turns = .port .m :: ts) (hqueue : s.mQueue = w :: ws) :
    arrival s = (.command, s.servingM ts w ws) := by
  simp [arrival, hturn, hqueue]

theorem arrival_turns (ha : arrival s = (a, u)) : u.turns = s.turns.tail := by
  rcases arrival_cases s with
      ⟨hturn, e⟩ | ⟨_, hturn, e⟩ | ⟨_, hturn, _, e⟩ | ⟨_, hturn, _, e⟩ | ⟨_, _, _, hturn, _, e⟩ | ⟨_, _, _, hturn, _, e⟩ <;>
    rw [ha] at e <;> cases e <;> simp [hturn]

theorem arrival_queues_of_p (hturn : s.turns = .port .p :: ts) (ha : arrival s = (a, u)) :
    u.pQueue = s.pQueue.tail ∧ u.mQueue = s.mQueue := by
  cases hqueue : s.pQueue with
  | nil =>
    simp only [arrival, hturn, hqueue] at ha
    cases ha
    exact ⟨rfl, rfl⟩
  | cons c cs =>
    rw [arrival_of_p hturn hqueue] at ha
    cases ha
    exact ⟨rfl, rfl⟩

theorem arrival_queues_of_m (hturn : s.turns = .port .m :: ts) (ha : arrival s = (a, u)) :
    u.mQueue = s.mQueue.tail ∧ u.pQueue = s.pQueue := by
  cases hqueue : s.mQueue with
  | nil =>
    simp only [arrival, hturn, hqueue] at ha
    cases ha
    exact ⟨rfl, rfl⟩
  | cons w ws =>
    rw [arrival_of_m hturn hqueue] at ha
    cases ha
    exact ⟨rfl, rfl⟩

theorem arrival_queues_of_reset (hturn : s.turns = .reset :: ts) (ha : arrival s = (a, u)) :
    u.pQueue = s.pQueue ∧ u.mQueue = s.mQueue := by
  simp only [arrival, hturn] at ha
  cases ha
  exact ⟨rfl, rfl⟩

/-! ## The step on what arrived -/

theorem step_of_command (ha : arrival s = (.command, u)) : step s = commandStep u := by
  simp [step, ha]

/-- The step takes nothing from the streams beyond what arrived. -/
theorem step_keeps_streams (ha : arrival s = (a, u)) (h : step s = .next t) :
    t.pQueue = u.pQueue ∧ t.mQueue = u.mQueue ∧ t.turns = u.turns := by
  rcases step_effect h with ⟨_, ha', rfl⟩ | ⟨_, ha', rfl⟩ | ⟨_, _, ha', heffect⟩ <;> rw [ha] at ha' <;> cases ha'
  · exact ⟨rfl, rfl, rfl⟩
  · exact ⟨rfl, rfl, rfl⟩
  · exact heffect.frame.2

theorem step_turns (h : step s = .next t) : t.turns = s.turns.tail :=
  (step_keeps_streams rfl h).2.2.trans (arrival_turns rfl)

theorem step_queues_of_p (hturn : s.turns = .port .p :: ts) (h : step s = .next t) :
    t.pQueue = s.pQueue.tail ∧ t.mQueue = s.mQueue := by
  obtain ⟨hp, hm, -⟩ := step_keeps_streams rfl h
  rw [hp, hm]
  exact arrival_queues_of_p hturn rfl

theorem step_queues_of_m (hturn : s.turns = .port .m :: ts) (h : step s = .next t) :
    t.mQueue = s.mQueue.tail ∧ t.pQueue = s.pQueue := by
  obtain ⟨hp, hm, -⟩ := step_keeps_streams rfl h
  rw [hp, hm]
  exact arrival_queues_of_m hturn rfl

theorem step_queues_of_reset (hturn : s.turns = .reset :: ts) (h : step s = .next t) :
    t.pQueue = s.pQueue ∧ t.mQueue = s.mQueue := by
  obtain ⟨hp, hm, -⟩ := step_keeps_streams rfl h
  rw [hp, hm]
  exact arrival_queues_of_reset hturn rfl

/-! ## Every step answers a next state -/

theorem exec_answers (i : Instr) (s : State) : ∃ t, exec i s = .next t := by
  cases i <;> exact ⟨_, rfl⟩

theorem commandStep_answers (s : State) : ∃ t, commandStep s = .next t := by
  rcases commandStep_cases s with ⟨_, e⟩ | ⟨_, _, _, e⟩ | ⟨_, i, _, e⟩ <;> rw [e]
  · exact ⟨_, rfl⟩
  · exact ⟨_, rfl⟩
  · exact exec_answers i s

theorem step_answers (s : State) : ∃ t, step s = .next t := by
  rcases step_cases s with ⟨_, _, e⟩ | ⟨_, _, e⟩ | ⟨u, _, e⟩ <;> rw [e]
  · exact ⟨_, rfl⟩
  · exact ⟨_, rfl⟩
  · exact commandStep_answers u

end

/-- Settles O9: no instruction faults or refuses in the host's sense, and a step drops just the turn that arrived. -/
theorem everyStepCompletesInOneTurn : Obligations.EveryStepCompletesInOneTurn := fun s =>
  (step_answers s).imp fun _ h => ⟨h, step_turns h⟩

/-- Settles O10: the command on the port is the head of its stream, and the step takes nothing else from the streams. -/
theorem portsKeepTheirCommandOrder : Obligations.PortsKeepTheirCommandOrder := by
  intro s t h
  refine ⟨fun ts c cs hturn hqueue => ?_, fun ts w ws hturn hqueue => ?_, fun ts hturn => step_queues_of_p hturn h,
    fun ts hturn => step_queues_of_m hturn h, fun ts hturn => step_queues_of_reset hturn h⟩
  · have ha := arrival_of_p hturn hqueue
    obtain ⟨hp, hm, hts⟩ := step_keeps_streams ha h
    exact ⟨⟨_, ha, rfl, rfl, rfl, rfl, rfl, step_of_command ha ▸ h⟩, hp, hm, hts⟩
  · have ha := arrival_of_m hturn hqueue
    obtain ⟨hp, hm, hts⟩ := step_keeps_streams ha h
    exact ⟨⟨_, ha, rfl, rfl, rfl, rfl, step_of_command ha ▸ h⟩, hm, hp, hts⟩

end Sys2Proof.Machine
end

section
/-! PROOFS. The direct writes of the button file are idempotent (spec/20_memory.md R56). -/

namespace Sys2Proof.Machine

section
variable {s : State}

/-! ## Doing the same thing twice -/

/-- Writing a bit again leaves a bit-set in canonical form as the first write left it. -/
theorem bitPut_bitPut {m : BitSet} (h : Memory.wf m) (i : Nat) (b : Bool) :
    bitPut (bitPut m i b) i b = bitPut m i b := by
  refine Memory.ext_of_read (bitPut_wf (bitPut_wf h i b) i b) (bitPut_wf h i b) (Memory.read_eq_of_bitGet fun j => ?_)
  simp only [bitGet_bitPut]
  split <;> rfl

@[simp] theorem Ports.answer_answer (io : Ports) (w x d) : (io.answer w x d).answer w x d = io.answer w x d := by
  cases hport : io.active with
  | p => simp [Ports.answer_of_p, hport]
  | m => simp [Ports.answer_of_m, hport]

@[simp] theorem respond_respond (r : Response) (s : State) : respond r (respond r s) = respond r s := by
  simp [respond]

theorem halted_raise (c : Fault) (s : State) : halted (raise c s) = true := by
  simp [halted]

theorem ignoreHalted_raise (c : Fault) (s : State) : ignoreHalted (raise c s) = raise c s :=
  respond_respond ..

theorem ignoreHalted_ignoreHalted (s : State) : ignoreHalted (ignoreHalted s) = ignoreHalted s :=
  respond_respond ..

/-! ## A `BS_` command given twice -/

variable {op : Op} {idx : BitVec 16} {effect : Nat → State → State}

theorem buttonCommand_of_halted (hhalt : halted s = true) : buttonCommand op idx effect s = ignoreHalted s := by
  simp [buttonCommand, command, hhalt]

theorem buttonCommand_of_legal (hrun : halted s = false) (hport : s.ports.active = op.port)
    (hidx : idx.toNat < s.params.N) : buttonCommand op idx effect s = effect idx.toNat s := by
  simp [buttonCommand, command, portLegal, indexLegal, hrun, hport, hidx]

/-- A `BS_` command leaves a halted block, in which the same command changes nothing more, or has its effect. -/
theorem buttonCommand_halts_or_legal (op : Op) (idx : BitVec 16) (effect : Nat → State → State) (s : State) :
    (halted (buttonCommand op idx effect s) = true ∧
      buttonCommand op idx effect (buttonCommand op idx effect s) = buttonCommand op idx effect s) ∨
    (halted s = false ∧ s.ports.active = op.port ∧ idx.toNat < s.params.N ∧
      buttonCommand op idx effect s = effect idx.toNat s) := by
  rcases buttonCommand_cases op idx effect s with ⟨hhalt, e⟩ | ⟨_, _, e⟩ | ⟨_, _, _, e⟩ | hlegal
  · have hhalt' : halted (ignoreHalted s) = true := hhalt
    rw [e, buttonCommand_of_halted hhalt']
    exact .inl ⟨hhalt', ignoreHalted_ignoreHalted s⟩
  · rw [e, buttonCommand_of_halted (halted_raise _ s)]
    exact .inl ⟨halted_raise _ s, ignoreHalted_raise _ s⟩
  · rw [e, buttonCommand_of_halted (halted_raise _ s)]
    exact .inl ⟨halted_raise _ s, ignoreHalted_raise _ s⟩
  · exact .inr hlegal

/-- A `BS_` command is idempotent if its effect is, where the effect neither halts the block nor moves the port. -/
theorem buttonCommand_idempotent
    (hframe : halted (effect idx.toNat s) = halted s ∧ (effect idx.toNat s).ports.active = s.ports.active ∧
      (effect idx.toNat s).params = s.params)
    (heffect : effect idx.toNat (effect idx.toNat s) = effect idx.toNat s) :
    buttonCommand op idx effect (buttonCommand op idx effect s) = buttonCommand op idx effect s := by
  obtain ⟨hhalted, hactive, hparams⟩ := hframe
  rcases buttonCommand_halts_or_legal op idx effect s with ⟨_, e⟩ | ⟨hrun, hport, hidx, e⟩
  · exact e
  · rw [e, buttonCommand_of_legal (hhalted.trans hrun) (hactive.trans hport) (hparams ▸ hidx), heffect]

theorem exec_bsResetIndex_of_legal (hrun : halted s = false) (hport : s.ports.active = .m)
    (hidx : idx.toNat < s.params.N) :
    exec (.bsResetIndex idx) s = .next (respondDbr {} idx.toNat
      { s with pressed := bitPut s.pressed idx.toNat false, latched := bitPut s.latched idx.toNat false }) :=
  congrArg Host.Outcome.next (buttonCommand_of_legal hrun hport hidx)

end

/-- Settles O50: a faulted or ignored first command leaves a halted block; after a legal one the second is legal too and
writes the same bits, and a second reset appends its event again. -/
theorem directWritesAreIdempotent : Obligations.DirectWritesAreIdempotent := by
  intro idx v s hpressed hlatched
  refine ⟨congrArg Host.Outcome.next ?_, congrArg Host.Outcome.next ?_, fun hrun => ?_⟩
  · refine buttonCommand_idempotent ⟨rfl, by simp, rfl⟩ ?_
    simp [respond, bitPut_bitPut hpressed]
  · refine buttonCommand_idempotent ⟨rfl, by simp, rfl⟩ ?_
    simp [respond, bitPut_bitPut hlatched]
  · rcases buttonCommand_halts_or_legal .bsResetIndex idx _ s with ⟨hhalt, _⟩ | ⟨hrun₀, hport, hidx, _⟩
    · exact absurd (hhalt.symm.trans hrun) (by decide)
    · have hfirst : execState (.bsResetIndex idx) s = respondDbr {} idx.toNat
          { s with pressed := bitPut s.pressed idx.toNat false, latched := bitPut s.latched idx.toNat false } := by
        simp only [execState, exec_bsResetIndex_of_legal hrun₀ hport hidx]
      rw [hfirst] at hrun ⊢
      rw [exec_bsResetIndex_of_legal hrun ((Ports.answer_active ..).trans hport) hidx]
      simp [respondDbr, bitPut_bitPut hpressed, bitPut_bitPut hlatched]

end Sys2Proof.Machine
end

section
/-! PROOFS. One turn of each kind of command in a block that runs (spec/60_exceptions.md R147), and that a produce and a
button command commute (spec/20_memory.md R60, R63). -/

namespace Sys2Proof

/-! ## The words of the two ring commands, and what decoding has checked -/

theorem decode_produceWord (n : Nat) : decode n .p 0x00000001 = .ok .rbProduce := rfl

theorem decode_consumeWord (n : Nat) : decode n .m 0x00000002 = .ok .rbConsume := rfl

theorem Op.instr_index? (op : Op) (idx : BitVec 16) (v : Bool) (l : Behaviour) :
    (op.instr idx v l).index? = if op.usesIDX then some idx.toNat else none := by
  cases op <;> rfl

/-- A word that decodes names an index, where it names one, within range (R78, R110). -/
theorem index_lt_of_decode {n k : Nat} {port : Port} {w : Word} {i : Instr} (hdecode : decode n port w = .ok i)
    (hindex : i.index? = some k) : k < n := by
  rcases decode_cases n port w with
      ⟨_, e⟩ | ⟨op, _, ⟨_, e⟩ | ⟨_, _, e⟩ | ⟨_, _, _, _, e⟩ | ⟨_, _, hlt, e⟩⟩ <;>
    rw [hdecode] at e <;> cases e
  rw [Op.instr_index?] at hindex
  split at hindex <;> cases hindex
  next huses => exact hlt huses

end Sys2Proof

namespace Sys2Proof.Machine

/-! ## What a button command writes: the button file's columns of R36 -/

/-- `PRESSED` after a legal `BS_` command. -/
def pressedAfter (pressed : BitSet) : Instr → BitSet
  | .bsSetPressed idx v => bitPut pressed idx.toNat v
  | .bsResetIndex idx => bitPut pressed idx.toNat false
  | .bsEdge idx v _ => if v = bitGet pressed idx.toNat then pressed else bitPut pressed idx.toNat v
  | _ => pressed

/-- `LATCHED` after a legal `BS_` command. -/
def latchedAfter (pressed latched : BitSet) : Instr → BitSet
  | .bsSetLatched idx v => bitPut latched idx.toNat v
  | .bsResetIndex idx => bitPut latched idx.toNat false
  | .bsEdge idx v l =>
    if v ≠ bitGet pressed idx.toNat ∧ v = true ∧ l = .latching then
      bitPut latched idx.toNat (!bitGet latched idx.toNat)
    else latched
  | _ => latched

/-- `EVENTS` after a legal `BS_` command. -/
def eventsAfter (events : List Event) : Instr → List Event
  | .bsResetIndex idx => events ++ [.dbr idx.toNat]
  | _ => events

/-- The update of a legal `BS_` command: it reads and writes the button file and `EVENTS` alone. -/
abbrev State.buttoned (s : State) (i : Instr) : State :=
  { s with pressed := pressedAfter s.pressed i
           latched := latchedAfter s.pressed s.latched i
           events := eventsAfter s.events i }

theorem edgeEffect_eq_buttoned (s : State) (idx : BitVec 16) (v : Bool) (l : Behaviour) :
    ∃ io, edgeEffect v l idx.toNat s = { s.buttoned (.bsEdge idx v l) with ports := io } := by
  rcases edgeEffect_cases v l idx.toNat s with ⟨h, e⟩ | ⟨h, rfl, rfl, e⟩ | ⟨h, rfl, rfl, e⟩ | ⟨h, rfl, e⟩ <;>
    exact ⟨_, by rw [e]; simp [respond, pressedAfter, latchedAfter, eventsAfter, h]; rfl⟩

/-- A legal `BS_` command makes its update and drives the ports. -/
theorem exec_eq_buttoned {s : State} {i : Instr} {k : Nat} (hindex : i.index? = some k) (hrun : halted s = false)
    (hport : s.ports.active = .m) (hlt : k < s.params.N) :
    ∃ io, exec i s = .next { s.buttoned i with ports := io } := by
  cases i <;> cases hindex
  case bsEdge idx v l =>
    obtain ⟨io, e⟩ := edgeEffect_eq_buttoned s idx v l
    exact ⟨io, congrArg Host.Outcome.next ((buttonCommand_of_legal (op := .bsEdge) hrun hport hlt).trans e)⟩
  all_goals
    refine ⟨_, congrArg Host.Outcome.next (buttonCommand_of_legal hrun ?_ hlt)⟩
    exact hport

/-! ## One turn, served by a block that runs -/

section
variable {s t u : State} {ts : List Turn} {x : Snapshot} {pq : List PCommand} {mq : List Word}

theorem nextState_of_decoded {i : Instr} (ha : arrival s = (.command, u)) (hrun : halted u = false)
    (hdecode : fetch u = .ok i) (hexec : exec i u = .next t) : nextState s = t := by
  simp [nextState, step_of_command ha, commandStep, hrun, hdecode, hexec]

theorem command_of_legal {op : Op} {effect : State → State} (hrun : halted s = false)
    (hport : s.ports.active = op.port) : command op effect s = effect s := by
  simp [command, portLegal, hrun, hport]

theorem nextState_produce (hturn : s.turns = .port .p :: ts) (hqueue : s.pQueue = ⟨0x00000001, x⟩ :: pq)
    (hrun : halted s = false) : nextState s = produceEffect (s.servingP ts ⟨0x00000001, x⟩ pq) :=
  nextState_of_decoded (arrival_of_p hturn hqueue) hrun (decode_produceWord _)
    (congrArg Host.Outcome.next (command_of_legal hrun rfl))

theorem nextState_consume (hturn : s.turns = .port .m :: ts) (hqueue : s.mQueue = 0x00000002 :: mq)
    (hrun : halted s = false) : nextState s = consumeEffect (s.servingM ts 0x00000002 mq) :=
  nextState_of_decoded (arrival_of_m hturn hqueue) hrun (decode_consumeWord _)
    (congrArg Host.Outcome.next (command_of_legal hrun rfl))

/-- A turn of port M with a word that decodes to a `BS_` command makes its update. -/
theorem nextState_button {w : Word} {i : Instr} {k : Nat} (hturn : s.turns = .port .m :: ts)
    (hqueue : s.mQueue = w :: mq) (hrun : halted s = false) (hdecode : decode s.params.N .m w = .ok i)
    (hindex : i.index? = some k) :
    ∃ io, nextState s = { s.buttoned i with turns := ts, mQueue := mq, ports := io } := by
  obtain ⟨io, hexec⟩ := exec_eq_buttoned (s := s.servingM ts w mq) hindex hrun rfl (index_lt_of_decode hdecode hindex)
  exact ⟨io, nextState_of_decoded (arrival_of_m hturn hqueue) hrun hdecode hexec⟩

/-! ## A produce and a button command -/

theorem produceEffect_frame (s : State) :
    (produceEffect s).fault = s.fault ∧ (produceEffect s).params = s.params ∧ (produceEffect s).mQueue = s.mQueue ∧
      (produceEffect s).turns = s.turns := by
  rcases produceEffect_cases s with ⟨_, e⟩ | ⟨_, e⟩ <;> rw [e] <;> exact ⟨rfl, rfl, rfl, rfl⟩

/-- A produce after a button command's update leaves the block that the update leaves after the produce. -/
theorem block_produceEffect_of_buttoned (i : Instr) (hblock : t.block = (s.buttoned i).block)
    (hparams : t.params = s.params) (hsnap : t.ports.snapIn = s.ports.snapIn) :
    (produceEffect t).block = ((produceEffect s).buttoned i).block := by
  obtain ⟨hhead, htail, hcount, hbuf, hrdsnap, hpressed, hlatched, hfault, hevents⟩ := Block.mk.inj hblock
  have hfull_iff : t.count = t.params.D ↔ s.count = s.params.D := by rw [hparams, show t.count = s.count from hcount]
  rcases produceEffect_cases s with ⟨hfull, e⟩ | ⟨hroom, e⟩ <;>
    rcases produceEffect_cases t with ⟨hfull', e'⟩ | ⟨hroom', e'⟩
  · rw [e, e']
    exact hblock
  · exact absurd (hfull_iff.mpr hfull) hroom'
  · exact absurd (hfull_iff.mp hfull') hroom
  · rw [e, e']
    simp [State.block, *]

section
variable {w : Word} {i : Instr} {k : Nat}

theorem block_after_produce_button (hturn : s.turns = .port .p :: .port .m :: ts)
    (hpQueue : s.pQueue = ⟨0x00000001, x⟩ :: pq) (hmQueue : s.mQueue = w :: mq) (hrun : halted s = false)
    (hdecode : decode s.params.N .m w = .ok i) (hindex : i.index? = some k) :
    (after 2 s).block = ((produceEffect (s.servingP (.port .m :: ts) ⟨0x00000001, x⟩ pq)).buttoned i).block := by
  obtain ⟨hfault, hparams, hmQueue', hturn'⟩ := produceEffect_frame (s.servingP (.port .m :: ts) ⟨0x00000001, x⟩ pq)
  obtain ⟨_, e⟩ := nextState_button hturn' (hmQueue'.trans hmQueue) ((congrArg faultValid hfault).trans hrun)
    (by rw [hparams]; exact hdecode) hindex
  simp only [after]
  rw [nextState_produce hturn hpQueue hrun, e]
  rfl

theorem block_after_button_produce (hturn : s.turns = .port .m :: .port .p :: ts)
    (hpQueue : s.pQueue = ⟨0x00000001, x⟩ :: pq) (hmQueue : s.mQueue = w :: mq) (hrun : halted s = false)
    (hdecode : decode s.params.N .m w = .ok i) (hindex : i.index? = some k) (us : List Turn) :
    (after 2 s).block = ((produceEffect (s.servingP us ⟨0x00000001, x⟩ pq)).buttoned i).block := by
  obtain ⟨_, e⟩ := nextState_button hturn hmQueue hrun hdecode hindex
  have hproduce := nextState_produce (congrArg State.turns e) ((congrArg State.pQueue e).trans hpQueue)
    ((congrArg halted e).trans hrun)
  simp only [after]
  rw [hproduce, e]
  exact block_produceEffect_of_buttoned i rfl rfl rfl

end

end

/-- Settles O57: the produce reads and writes the ring alone, the button command the button file and `EVENTS` alone. -/
theorem produceAndButtonCommandsCommute : Obligations.ProduceAndButtonCommandsCommute := by
  intro s x w i ts pq mq k hrun hdecode hindex start
  exact (block_after_produce_button (s := { start with turns := .port .p :: .port .m :: ts })
      rfl rfl rfl hrun hdecode hindex).trans
    (block_after_button_produce (s := { start with turns := .port .m :: .port .p :: ts })
      rfl rfl rfl hrun hdecode hindex _).symm

end Sys2Proof.Machine
end

section
/-! PROOFS. A produce and a consume presented at once, served in either order (spec/20_memory.md R59): what the live
snapshots become, what one ring command does in its turn, and the two turns together. -/

namespace Sys2Proof.Machine

section
variable {s t : State} {ts : List Turn} {x y : Snapshot} {pq : List PCommand} {mq : List Word}

/-! ## The live snapshots (R39) -/

theorem live_eq_nil (hempty : s.count = 0) : live s = [] := by
  simp [live, liveSlots, hempty]

theorem live_eq_cons_popped (hheld : s.count ≠ 0) (x : Snapshot) :
    live s = Slots.read s.buf ((s.tail + 1) % s.params.D) :: live (s.popped x) := by
  simp [live, liveSlots_eq_cons_popped hheld x]

theorem oldest_of_live {rest : List (Option Snapshot)} (hheld : s.count ≠ 0) (hlive : live s = some y :: rest) :
    Slots.read s.buf ((s.tail + 1) % s.params.D) = some y ∧ live (s.popped y) = rest := by
  rw [live_eq_cons_popped hheld y] at hlive
  exact List.cons.inj hlive

/-- The slot after the live ones is none of them while the ring has room. -/
theorem StateInv.produce_slot_notMem_liveSlots (h : StateInv s) (hroom : s.count ≠ s.params.D) :
    (s.head + 1) % s.params.D ∉ liveSlots s := by
  intro hmem
  obtain ⟨j, hj, hslot⟩ : ∃ j < s.count, (s.tail + 1 + j) % s.params.D = (s.head + 1) % s.params.D := by
    simpa [liveSlots] using hmem
  have hcount := h.count_le
  rw [h.produce_slot_eq] at hslot
  have hmod : j % s.params.D = s.count % s.params.D := Nat.ModEq.add_left_cancel' _ hslot
  rw [Nat.mod_eq_of_lt (by omega), Nat.mod_eq_of_lt (by omega)] at hmod
  omega

/-- A snapshot stored in a ring with room is the newest of the live ones. -/
theorem StateInv.live_pushed (h : StateInv s) (hroom : s.count ≠ s.params.D) (x : Snapshot) :
    live (s.pushed x) = live s ++ [some x] := by
  have hslots : liveSlots (s.pushed x) = liveSlots s ++ [(s.head + 1) % s.params.D] := by
    rw [liveSlots_pushed, h.produce_slot_eq]
  have hkept : ∀ k ∈ liveSlots s, Slots.read (s.pushed x).buf k = Slots.read s.buf k := fun k hk => by
    have hne : k ≠ (s.head + 1) % s.params.D := fun e => h.produce_slot_notMem_liveSlots hroom (e ▸ hk)
    rw [Slots.read_write, if_neg hne]
  simp [live, hslots, List.map_congr_left hkept, Slots.read_write]

/-- A ring that is not empty has an oldest snapshot, in the slot after `TAIL`. -/
theorem StateInv.exists_oldest (h : StateInv s) (hheld : s.count ≠ 0) :
    ∃ y, Slots.read s.buf ((s.tail + 1) % s.params.D) = some y := by
  refine Option.isSome_iff_exists.mp (h.live_written _ ?_)
  rw [liveSlots_eq_cons_popped hheld []]
  exact List.mem_cons_self

theorem block_popped_pushed (hheld : s.count ≠ 0) (x y : Snapshot) :
    ((s.popped y).pushed x).block = ((s.pushed x).popped y).block := by
  simp only [State.block, Block.mk.injEq, true_and, and_true]
  omega

theorem live_congr (hblock : s.block = t.block) (hparams : s.params = t.params) : live s = live t := by
  obtain ⟨_, htail, hcount, hbuf, -⟩ := Block.mk.inj hblock
  simp [live, liveSlots, htail, hcount, hbuf, hparams]

/-! ## One turn of a ring command -/

/-- A turn of port P that produces into a full ring drops the snapshot (R91). -/
theorem nextState_produce_full (hturn : s.turns = .port .p :: ts) (hqueue : s.pQueue = ⟨0x00000001, x⟩ :: pq)
    (hrun : halted s = false) (hfull : s.count = s.params.D) :
    ∃ io, nextState s = { s with turns := ts, pQueue := pq, ports := io } ∧ io.snapOut = none := by
  rw [nextState_produce hturn hqueue hrun]
  rcases produceEffect_cases (s.servingP ts ⟨0x00000001, x⟩ pq) with ⟨_, e⟩ | ⟨hroom, _⟩
  · exact ⟨_, e, by simp⟩
  · exact absurd hfull hroom

/-- A turn of port P that produces into a ring with room stores the snapshot (R90). -/
theorem nextState_produce_room (hturn : s.turns = .port .p :: ts) (hqueue : s.pQueue = ⟨0x00000001, x⟩ :: pq)
    (hrun : halted s = false) (hroom : s.count ≠ s.params.D) :
    ∃ io, nextState s = { s.pushed x with turns := ts, pQueue := pq, ports := io } ∧ io.snapOut = none := by
  rw [nextState_produce hturn hqueue hrun]
  rcases produceEffect_cases (s.servingP ts ⟨0x00000001, x⟩ pq) with ⟨hfull, _⟩ | ⟨_, e⟩
  · exact absurd hfull hroom
  · exact ⟨_, e, by simp⟩

/-- A turn of port M that consumes from an empty ring returns nothing (R94). -/
theorem nextState_consume_empty (hturn : s.turns = .port .m :: ts) (hqueue : s.mQueue = 0x00000002 :: mq)
    (hrun : halted s = false) (hempty : s.count = 0) :
    ∃ io, nextState s = { s with turns := ts, mQueue := mq, ports := io } ∧ io.snapOut = none := by
  rw [nextState_consume hturn hqueue hrun]
  rcases consumeEffect_cases (s.servingM ts 0x00000002 mq) with ⟨_, e⟩ | ⟨hheld, _⟩ | ⟨hheld, _⟩
  · exact ⟨_, e, by simp⟩
  · exact absurd hempty hheld
  · exact absurd hempty hheld

/-- A turn of port M that consumes from a ring with snapshots returns the one after `TAIL` (R93). -/
theorem nextState_consume_held (hturn : s.turns = .port .m :: ts) (hqueue : s.mQueue = 0x00000002 :: mq)
    (hrun : halted s = false) (hheld : s.count ≠ 0) (hread : Slots.read s.buf ((s.tail + 1) % s.params.D) = some y) :
    ∃ io, nextState s = { s.popped y with turns := ts, mQueue := mq, ports := io } ∧ io.snapOut = some y := by
  rw [nextState_consume hturn hqueue hrun]
  rcases consumeEffect_cases (s.servingM ts 0x00000002 mq) with ⟨hempty, _⟩ | ⟨_, hnone, _⟩ | ⟨_, z, hsome, e⟩
  · exact absurd hempty hheld
  · exact nomatch hread.symm.trans hnone
  · cases hread.symm.trans hsome
    exact ⟨_, e, by simp⟩

/-! ## Two turns -/

/-- Two turns from `s` return `out` and leave the block of `t`. -/
structure TwoTurns (s : State) (out : List Snapshot) (t : State) : Prop where
  returned : returnedIn 2 s = out
  block : (after 2 s).block = t.block
  params : (after 2 s).params = t.params

theorem TwoTurns.live {out : List Snapshot} (h : TwoTurns s out t) : live (after 2 s) = live t :=
  live_congr h.block h.params

theorem TwoTurns.rdsnap {out : List Snapshot} (h : TwoTurns s out t) : (after 2 s).rdsnap = t.rdsnap :=
  congrArg Block.rdsnap h.block

theorem TwoTurns.of_nextStates {u v : State} {a b : Option Snapshot} (hu : nextState s = u) (ha : u.ports.snapOut = a)
    (hv : nextState u = v) (hb : v.ports.snapOut = b) (hblock : v.block = t.block) (hparams : v.params = t.params) :
    TwoTurns s (a.toList ++ b.toList) t := by
  subst hu hv ha hb
  exact ⟨by simp [returnedIn], hblock, hparams⟩

/-- P first, with room: the snapshot is stored, then the oldest returned. -/
theorem twoTurns_store_return (hturn : s.turns = .port .p :: .port .m :: ts)
    (hpQueue : s.pQueue = ⟨0x00000001, x⟩ :: pq) (hmQueue : s.mQueue = 0x00000002 :: mq) (hrun : halted s = false)
    (hroom : s.count ≠ s.params.D) (hread : Slots.read (s.pushed x).buf ((s.tail + 1) % s.params.D) = some y) :
    TwoTurns s [y] ((s.pushed x).popped y) := by
  obtain ⟨io, e, hout⟩ := nextState_produce_room hturn hpQueue hrun hroom
  obtain ⟨io', e', hout'⟩ := nextState_consume_held (s := { s.pushed x with turns := _, pQueue := pq, ports := io })
    rfl hmQueue hrun (Nat.succ_ne_zero _) hread
  exact .of_nextStates e hout e' hout' rfl rfl

/-- P first, into a full ring: the snapshot is dropped, then the oldest returned. -/
theorem twoTurns_drop_return (hturn : s.turns = .port .p :: .port .m :: ts)
    (hpQueue : s.pQueue = ⟨0x00000001, x⟩ :: pq) (hmQueue : s.mQueue = 0x00000002 :: mq) (hrun : halted s = false)
    (hfull : s.count = s.params.D) (hread : Slots.read s.buf ((s.tail + 1) % s.params.D) = some y) :
    TwoTurns s [y] (s.popped y) := by
  obtain ⟨io, e, hout⟩ := nextState_produce_full hturn hpQueue hrun hfull
  obtain ⟨io', e', hout'⟩ := nextState_consume_held (s := { s with turns := _, pQueue := pq, ports := io })
    rfl hmQueue hrun (by have := s.params.hD; show s.count ≠ 0; omega) hread
  exact .of_nextStates e hout e' hout' rfl rfl

/-- M first, from an empty ring: nothing is returned, then the snapshot stored. -/
theorem twoTurns_nothing_store (hturn : s.turns = .port .m :: .port .p :: ts)
    (hpQueue : s.pQueue = ⟨0x00000001, x⟩ :: pq) (hmQueue : s.mQueue = 0x00000002 :: mq) (hrun : halted s = false)
    (hempty : s.count = 0) : TwoTurns s [] (s.pushed x) := by
  obtain ⟨io, e, hout⟩ := nextState_consume_empty hturn hmQueue hrun hempty
  obtain ⟨io', e', hout'⟩ := nextState_produce_room (s := { s with turns := _, mQueue := mq, ports := io })
    rfl hpQueue hrun (by have := s.params.hD; show s.count ≠ s.params.D; omega)
  exact .of_nextStates e hout e' hout' rfl rfl

/-- M first, from a ring with snapshots: the oldest is returned, then the snapshot stored. -/
theorem twoTurns_return_store (hturn : s.turns = .port .m :: .port .p :: ts)
    (hpQueue : s.pQueue = ⟨0x00000001, x⟩ :: pq) (hmQueue : s.mQueue = 0x00000002 :: mq) (hrun : halted s = false)
    (hheld : s.count ≠ 0) (hroom : s.count - 1 ≠ s.params.D)
    (hread : Slots.read s.buf ((s.tail + 1) % s.params.D) = some y) :
    TwoTurns s [y] ((s.popped y).pushed x) := by
  obtain ⟨io, e, hout⟩ := nextState_consume_held hturn hmQueue hrun hheld hread
  obtain ⟨io', e', hout'⟩ := nextState_produce_room (s := { s.popped y with turns := _, mQueue := mq, ports := io })
    rfl hpQueue hrun hroom
  exact .of_nextStates e hout e' hout' rfl rfl

end

/-- Settles O39: each order is a pair of ring updates, and the oldest snapshot and those left are read off the list of live
ones; with a ring neither empty nor full the two updates commute. -/
theorem bothOrdersOfASimultaneousPair : Obligations.BothOrdersOfASimultaneousPair := by
  intro s x pq mq ts hinv hrun both pThenM mThenP
  have hdepth := s.params.hD.1
  refine ⟨fun hempty => ?_, fun hfull => ?_, fun hpos hlt => ?_⟩
  · have hroom : s.count ≠ s.params.D := by omega
    have hlive : live (s.pushed x) = [some x] := by rw [hinv.live_pushed hroom, live_eq_nil hempty, List.nil_append]
    obtain ⟨hread, hrest⟩ := oldest_of_live (Nat.succ_ne_zero _) hlive
    have hPM := twoTurns_store_return (s := pThenM) rfl rfl rfl hrun hroom hread
    have hMP := twoTurns_nothing_store (s := mThenP) rfl rfl rfl hrun hempty
    exact ⟨⟨hPM.returned, hPM.live.trans hrest, hPM.rdsnap⟩, hMP.returned, hMP.live.trans hlive, hMP.rdsnap⟩
  · have hheld : s.count ≠ 0 := by omega
    have hroom : s.count - 1 ≠ s.params.D := by omega
    obtain ⟨y, hread⟩ := hinv.exists_oldest hheld
    have hPM := twoTurns_drop_return (s := pThenM) rfl rfl rfl hrun hfull hread
    have hMP := twoTurns_return_store (s := mThenP) rfl rfl rfl hrun hheld hroom hread
    refine ⟨y, live (s.popped y), hread ▸ live_eq_cons_popped hheld y, ⟨hPM.returned, hPM.live, hPM.rdsnap⟩,
      hMP.returned, hMP.live.trans ?_, hMP.rdsnap⟩
    exact (hinv.pop hheld hread).live_pushed hroom x
  · have hheld : s.count ≠ 0 := by omega
    have hroom : s.count ≠ s.params.D := by omega
    obtain ⟨y, hread⟩ := hinv.exists_oldest hheld
    have hlive : live s = some y :: live (s.popped y) := hread ▸ live_eq_cons_popped hheld y
    have hlive' : live (s.pushed x) = some y :: (live (s.popped y) ++ [some x]) := by
      rw [hinv.live_pushed hroom, hlive, List.cons_append]
    obtain ⟨hread', hrest⟩ := oldest_of_live (Nat.succ_ne_zero _) hlive'
    have hPM := twoTurns_store_return (s := pThenM) rfl rfl rfl hrun hroom hread'
    have hMP := twoTurns_return_store (s := mThenP) rfl rfl rfl hrun hheld (by show s.count - 1 ≠ s.params.D; omega) hread
    exact ⟨y, _, hlive, hPM.returned, hMP.returned, hPM.live.trans hrest, hPM.rdsnap,
      hPM.block.trans ((block_popped_pushed (s := s) hheld x y).symm.trans hMP.block.symm)⟩

end Sys2Proof.Machine
end


section
/-! PROOFS. The decoder and the encoder are inverse to each other (spec/30_encoding.md R71 to R78). -/

namespace Sys2Proof

section
variable {n : Nat} {port : Port} {w : Word} {op : Op}

/-! ## The answers of the decoder, one for each branch of R78 -/

theorem decode_of_illegalOp (hop : opOfField (fieldOP w) = none) : decode n port w = .error .illegalOp := by
  simp [decode, hop]

theorem decode_of_wrongPort (hop : opOfField (fieldOP w) = some op) (hport : op.port ≠ port) :
    decode n port w = .error .wrongPort := by
  simp [decode, hop, hport]

theorem decode_of_reserved (hop : opOfField (fieldOP w) = some op) (hport : op.port = port)
    (hset : (reservedSet w || unusedSet op w) = true) : decode n port w = .error .reserved := by
  simp only [decode, hop, hport, hset, ne_eq, not_true, if_false, if_true]

theorem decode_of_index (hop : opOfField (fieldOP w) = some op) (hport : op.port = port)
    (hclear : (reservedSet w || unusedSet op w) = false) (huses : op.usesIDX = true) (hidx : n ≤ (fieldIDX w).toNat) :
    decode n port w = .error .index := by
  simp [decode, hop, hport, hclear, huses, hidx]

theorem decode_of_legal (hop : opOfField (fieldOP w) = some op) (hport : op.port = port)
    (hclear : (reservedSet w || unusedSet op w) = false) (hidx : op.usesIDX = true → (fieldIDX w).toNat < n) :
    decode n port w = .ok (op.instr (fieldIDX w) (fieldV w) (behaviourOfBit (fieldL w))) := by
  simpa [decode, hop, hport, hclear] using hidx

/-- A word decodes exactly when it passes every check of R78, and then to the operation of its `OP` with its operand
fields. -/
theorem decode_eq_ok_iff {i : Instr} :
    decode n port w = .ok i ↔
      ∃ op, opOfField (fieldOP w) = some op ∧ op.port = port ∧ (reservedSet w || unusedSet op w) = false ∧
        (op.usesIDX = true → (fieldIDX w).toNat < n) ∧
        i = op.instr (fieldIDX w) (fieldV w) (behaviourOfBit (fieldL w)) := by
  constructor
  · intro hdecode
    rcases decode_cases n port w with
        ⟨_, e⟩ | ⟨op, hop, ⟨_, e⟩ | ⟨_, _, e⟩ | ⟨_, _, _, _, e⟩ | ⟨hport, hclear, hidx, e⟩⟩ <;>
      rw [hdecode] at e <;> cases e
    exact ⟨op, hop, hport, hclear, hidx, rfl⟩
  · rintro ⟨op, hop, hport, hclear, hidx, rfl⟩
    exact decode_of_legal hop hport hclear hidx

end

/-! ## The instruction made of an operation and its operand fields -/

@[simp] theorem Op.op_instr (op : Op) (idx : BitVec 16) (v : Bool) (l : Behaviour) : (op.instr idx v l).op = op := by
  cases op <;> rfl

/-- The operand fields an operation does not use are 0 in its instruction (R73). -/
theorem Op.fields_instr (op : Op) (idx : BitVec 16) (v : Bool) (l : Behaviour) :
    (op.instr idx v l).fields = (if op.usesIDX then idx else 0, op.usesL && l.bit, op.usesV && v) := by
  cases op <;> rfl

theorem Op.wellFormed_instr {n : Nat} {op : Op} {idx : BitVec 16} {v : Bool} {l : Behaviour} :
    WellFormed n (op.instr idx v l) ↔ (op.usesIDX = true → idx.toNat < n) := by
  cases huses : op.usesIDX <;> simp [WellFormed, Instr.wellFormed, Op.instr_index?, huses]

/-- The fields of an instruction's word are the instruction's own, whichever it is. -/
theorem Laws.encodedFields (i : Instr) : Laws.EncodedFields.Statement i := by
  cases i with
  | rbProduce => exact Laws.EncodedFields.rbProduce
  | rbConsume => exact Laws.EncodedFields.rbConsume
  | bsGetPressed idx => exact Laws.EncodedFields.bsGetPressed idx
  | bsSetPressed idx v => exact Laws.EncodedFields.bsSetPressed idx v
  | bsGetLatched idx => exact Laws.EncodedFields.bsGetLatched idx
  | bsSetLatched idx v => exact Laws.EncodedFields.bsSetLatched idx v
  | bsResetIndex idx => exact Laws.EncodedFields.bsResetIndex idx
  | bsEdge idx v l => exact Laws.EncodedFields.bsEdge idx v l

/-- Settles O1: the word of `i` passes the decoder's checks because its fields are those of `i`, and the index check is
well-formedness. -/
theorem decodeOfEncodeIsTheInstruction : Obligations.DecodeOfEncodeIsTheInstruction := by
  intro n i hwf
  obtain ⟨hop, hreserved, hunused, hinstr⟩ := Laws.encodedFields i
  refine decode_eq_ok_iff.mpr ⟨i.op, hop, rfl, by simp [hreserved, hunused], ?_, hinstr.symm⟩
  rw [← hinstr] at hwf
  exact Op.wellFormed_instr.mp hwf

theorem unusedSet_eq_false_iff {op : Op} {w : Word} :
    unusedSet op w = false ↔
      (op.usesIDX = false → fieldIDX w = 0) ∧ (op.usesL = false → fieldL w = false) ∧
        (op.usesV = false → fieldV w = false) := by
  simp [unusedSet, and_assoc]

/-- The instruction read from the fields of a word is written back as that word, when no bit of it is ignored. -/
theorem encode_instr_fields {op : Op} {w : Word} (hop : opOfField (fieldOP w) = some op)
    (hreserved : reservedSet w = false) (hunused : unusedSet op w = false) :
    encode (op.instr (fieldIDX w) (fieldV w) (behaviourOfBit (fieldL w))) = w := by
  obtain ⟨hidx, hl, hv⟩ := unusedSet_eq_false_iff.mp hunused
  have hidx' : (if op.usesIDX then fieldIDX w else 0) = fieldIDX w := by
    split
    · rfl
    · next huses => exact (hidx (by simpa using huses)).symm
  have hl' : (op.usesL && fieldL w) = fieldL w := by
    cases huses : op.usesL <;> simp [hl, huses]
  have hv' : (op.usesV && fieldV w) = fieldV w := by
    cases huses : op.usesV <;> simp [hv, huses]
  rw [encode, Op.fields_instr, Op.op_instr, bit_behaviourOfBit, hidx', hl', hv', code_of_opOfField hop]
  exact packWord_fields w hreserved

/-- Settles O2: what the decoder checked is what makes the word the packing of the instruction's fields. -/
theorem encodeOfDecodeIsTheWord : Obligations.EncodeOfDecodeIsTheWord := by
  intro n port w i hdecode
  obtain ⟨op, hop, hport, hclear, hidx, rfl⟩ := decode_eq_ok_iff.mp hdecode
  obtain ⟨hreserved, hunused⟩ := Bool.or_eq_false_iff.mp hclear
  exact ⟨encode_instr_fields hop hreserved hunused, by rw [Op.op_instr, hport], Op.wellFormed_instr.mpr hidx⟩

end Sys2Proof
end

section
/-! PROOFS. The decoder against its pseudocode (spec/30_encoding.md R78) and against the opcode map (R74, R77). -/

namespace Sys2Proof

/-! ## The fields of a word as numbers (R71) -/

section
variable (w x : Word)

theorem toNat_fieldOP : (fieldOP w).toNat = w.toNat % 16 := by
  simp [fieldOP, BitVec.extractLsb'_toNat]

theorem toNat_fieldV : (fieldV w).toNat = w.toNat / 16 % 2 := by
  rw [fieldV, ← BitVec.testBit_toNat, Nat.toNat_testBit]

theorem toNat_fieldL : (fieldL w).toNat = w.toNat / 32 % 2 := by
  rw [fieldL, ← BitVec.testBit_toNat, Nat.toNat_testBit]

theorem toNat_fieldRSVL : (fieldRSVL w).toNat = w.toNat / 64 % 4 := by
  simp [fieldRSVL, BitVec.extractLsb'_toNat, Nat.shiftRight_eq_div_pow]

theorem toNat_fieldIDX : (fieldIDX w).toNat = w.toNat / 256 % 65536 := by
  simp [fieldIDX, BitVec.extractLsb'_toNat, Nat.shiftRight_eq_div_pow]

theorem toNat_fieldRSVH : (fieldRSVH w).toNat = w.toNat / 16777216 % 256 := by
  simp [fieldRSVH, BitVec.extractLsb'_toNat, Nat.shiftRight_eq_div_pow]

/-- A word is the sum of its six fields, each at its place. -/
theorem toNat_eq_sum_fields :
    w.toNat = (fieldOP w).toNat + 16 * (fieldV w).toNat + 32 * (fieldL w).toNat + 64 * (fieldRSVL w).toNat +
      256 * (fieldIDX w).toNat + 16777216 * (fieldRSVH w).toNat := by
  have hlt : w.toNat < 4294967296 := w.isLt
  rw [toNat_fieldOP, toNat_fieldV, toNat_fieldL, toNat_fieldRSVL, toNat_fieldIDX, toNat_fieldRSVH]
  omega

variable {w x}

/-- Two words are equal exactly when their six fields are. -/
theorem word_eq_iff_fields :
    w = x ↔ fieldOP w = fieldOP x ∧ fieldV w = fieldV x ∧ fieldL w = fieldL x ∧ fieldRSVL w = fieldRSVL x ∧
      fieldIDX w = fieldIDX x ∧ fieldRSVH w = fieldRSVH x := by
  constructor
  · rintro rfl
    exact ⟨rfl, rfl, rfl, rfl, rfl, rfl⟩
  · rintro ⟨hop, hv, hl, hrsvl, hidx, hrsvh⟩
    refine BitVec.eq_of_toNat_eq ?_
    rw [toNat_eq_sum_fields w, hop, hv, hl, hrsvl, hidx, hrsvh, ← toNat_eq_sum_fields]

theorem fieldOP_and : fieldOP (w &&& x) = fieldOP w &&& fieldOP x := BitVec.extractLsb'_and

theorem fieldV_and : fieldV (w &&& x) = (fieldV w && fieldV x) := BitVec.getLsbD_and

theorem fieldL_and : fieldL (w &&& x) = (fieldL w && fieldL x) := BitVec.getLsbD_and

theorem fieldRSVL_and : fieldRSVL (w &&& x) = fieldRSVL w &&& fieldRSVL x := BitVec.extractLsb'_and

theorem fieldIDX_and : fieldIDX (w &&& x) = fieldIDX w &&& fieldIDX x := BitVec.extractLsb'_and

theorem fieldRSVH_and : fieldRSVH (w &&& x) = fieldRSVH w &&& fieldRSVH x := BitVec.extractLsb'_and

/-! ## The bit ranges the pseudocode of R78 tests for zero -/

theorem reservedSet_eq_false_iff : reservedSet w = false ↔ fieldRSVH w = 0 ∧ fieldRSVL w = 0 := by
  simp [reservedSet]

theorem reservedSet_eq_true_iff : reservedSet w = true ↔ fieldRSVH w ≠ 0 ∨ fieldRSVL w ≠ 0 := by
  simp [reservedSet]

theorem extractLsb'_eq_zero_iff {start len : Nat} : w.extractLsb' start len = 0 ↔ w.toNat / 2 ^ start % 2 ^ len = 0 := by
  rw [← BitVec.toNat_inj, BitVec.extractLsb'_toNat, Nat.shiftRight_eq_div_pow, BitVec.ofNat_eq_ofNat, BitVec.toNat_zero]

theorem extractLsb'_eq_zero_iff_fieldL : w.extractLsb' 5 1 = 0 ↔ fieldL w = false := by
  rw [extractLsb'_eq_zero_iff, ← Bool.toNat_eq_zero, toNat_fieldL]
  omega

theorem extractLsb'_eq_zero_iff_fieldL_fieldV : w.extractLsb' 4 2 = 0 ↔ fieldL w = false ∧ fieldV w = false := by
  rw [extractLsb'_eq_zero_iff, ← Bool.toNat_eq_zero, ← Bool.toNat_eq_zero, toNat_fieldL, toNat_fieldV]
  omega

/-- Bits 23:4 also hold `RSVL`, which R78 has found 0 before it tests them. -/
theorem extractLsb'_eq_zero_iff_operands (hrsvl : fieldRSVL w = 0) :
    w.extractLsb' 4 20 = 0 ↔ fieldIDX w = 0 ∧ fieldL w = false ∧ fieldV w = false := by
  rw [fieldRSVL, extractLsb'_eq_zero_iff] at hrsvl
  rw [fieldIDX, extractLsb'_eq_zero_iff, extractLsb'_eq_zero_iff, ← Bool.toNat_eq_zero,
    ← Bool.toNat_eq_zero, toNat_fieldL, toNat_fieldV]
  omega

end

/-! ## What the pseudocode reads off the `OP` value -/

theorem opOfField_eq_some_iff {f : BitVec 4} {op : Op} : opOfField f = some op ↔ op.code = f :=
  ⟨code_of_opOfField, fun h => h ▸ opOfField_code op⟩

/-- R78 tests `OP = 1` for the operations of port P. -/
theorem Op.port_eq_iff (op : Op) (port : Port) : op.port = port ↔ (op.code.toNat = 1 ↔ port = .p) := by
  cases op <;> cases port <;> decide

/-- R78 tests `OP ≥ 3` for the operations with an index. -/
theorem Op.usesIDX_eq_true_iff (op : Op) : op.usesIDX = true ↔ 3 ≤ op.code.toNat := by
  cases op <;> decide

/-- The unused fields of R73 are the bit ranges R78 tests in three groups of `OP` values. -/
theorem unusedSet_eq_true_iff_ranges (op : Op) {w : Word} (hrsvl : fieldRSVL w = 0) :
    unusedSet op w = true ↔
      (op.code.toNat ∈ [1, 2] ∧ w.extractLsb' 4 20 ≠ 0) ∨ (op.code.toNat ∈ [3, 5, 7] ∧ w.extractLsb' 4 2 ≠ 0) ∨
        (op.code.toNat ∈ [4, 6] ∧ w.extractLsb' 5 1 ≠ 0) := by
  rw [← Bool.not_eq_false, unusedSet_eq_false_iff, ne_eq, ne_eq, ne_eq, extractLsb'_eq_zero_iff_operands hrsvl,
    extractLsb'_eq_zero_iff_fieldL_fieldV, extractLsb'_eq_zero_iff_fieldL]
  cases op <;> simp [Op.code, Op.usesIDX, Op.usesL, Op.usesV]

/-- Settles O3: each test of the pseudocode is the decoder's own, said of the `OP` value and of bit ranges. -/
theorem decoderFollowsItsPseudocode : Obligations.DecoderFollowsItsPseudocode := by
  intro n port w op i
  split
  case isTrue hillegal =>
    refine decode_of_illegalOp ((opOfField_eq_none_iff _).mpr (hillegal.imp_left fun h0 => ?_))
    exact BitVec.eq_of_toNat_eq h0
  case isFalse hlegal =>
  obtain ⟨o, ho⟩ : ∃ o, opOfField (fieldOP w) = some o := by
    refine Option.ne_none_iff_exists'.mp fun hnone => hlegal ?_
    exact ((opOfField_eq_none_iff _).mp hnone).imp_left (congrArg BitVec.toNat)
  have hcode : o.code = fieldOP w := code_of_opOfField ho
  have hop : o.code.toNat = op := congrArg BitVec.toNat hcode
  split
  case isTrue hwrong => exact decode_of_wrongPort ho (by rwa [ne_eq, Op.port_eq_iff, hop])
  case isFalse hright =>
  have hport : o.port = port := (o.port_eq_iff port).mpr (by rw [hop]; exact not_not.mp hright)
  split
  case isTrue hrsv =>
    exact decode_of_reserved ho hport (by rw [reservedSet_eq_true_iff.mpr hrsv, Bool.true_or])
  case isFalse hrsv =>
  have hreserved : reservedSet w = false := by rwa [← Bool.not_eq_true, reservedSet_eq_true_iff]
  have hunused := unusedSet_eq_true_iff_ranges o (not_not.mp (not_or.mp hrsv).2)
  rw [hop] at hunused
  have faults : unusedSet o w = true → decode n port w = .error .reserved := fun hset =>
    decode_of_reserved ho hport (by rw [hset, Bool.or_true])
  split
  case isTrue hset => exact faults (hunused.mpr (.inl hset))
  case isFalse hring =>
  split
  case isTrue hset => exact faults (hunused.mpr (.inr (.inl hset)))
  case isFalse hread =>
  split
  case isTrue hset => exact faults (hunused.mpr (.inr (.inr hset)))
  case isFalse hwrite =>
  have hclear : (reservedSet w || unusedSet o w) = false := by
    rw [hreserved, Bool.false_or, ← Bool.not_eq_true, hunused]
    exact not_or.mpr ⟨hring, not_or.mpr ⟨hread, hwrite⟩⟩
  have huses : o.usesIDX = true ↔ op ≥ 3 := by rw [o.usesIDX_eq_true_iff, hop]
  split
  case isTrue hindex => exact decode_of_index ho hport hclear (huses.mpr hindex.1) hindex.2
  case isFalse hindex =>
    refine ⟨o, hcode, decode_of_legal ho hport hclear fun hu => ?_⟩
    exact Nat.lt_of_not_le fun hle => hindex ⟨huses.mp hu, hle⟩

/-! ## The opcode map (R74) -/

/-- A row's mask covers `OP`, both reserved fields and the fields the operation does not use; its pattern is the `OP`
value. -/
theorem rows_pat_mask : ∀ r ∈ rows,
    r.pat = packWord 0 false false r.op.code ∧ fieldOP r.mask = BitVec.allOnes 4 ∧ fieldV r.mask = !r.op.usesV ∧
      fieldL r.mask = !r.op.usesL ∧ fieldRSVL r.mask = BitVec.allOnes 2 ∧
      fieldIDX r.mask = (if r.op.usesIDX then 0 else BitVec.allOnes 16) ∧ fieldRSVH r.mask = BitVec.allOnes 8 := by
  decide

theorem exists_row (op : Op) : ∃ r ∈ rows, r.op = op := by
  cases op <;> decide

theorem row_eq_of_op_eq : ∀ q ∈ rows, ∀ r ∈ rows, q.op = r.op → q = r := by
  decide

/-- A word selects a row exactly when its `OP` is the row's and it passes the decoder's check of reserved and unused
fields. -/
theorem selects_iff {r : Row} (hr : r ∈ rows) {w : Word} :
    r.selects w = true ↔ opOfField (fieldOP w) = some r.op ∧ (reservedSet w || unusedSet r.op w) = false := by
  obtain ⟨hpat, hop, hv, hl, hrsvl, hidx, hrsvh⟩ := rows_pat_mask r hr
  have hidx' : fieldIDX w &&& fieldIDX r.mask = 0 ↔ (r.op.usesIDX = false → fieldIDX w = 0) := by
    rw [hidx]
    cases r.op.usesIDX with
    | true => simp
    | false => rw [if_neg Bool.false_ne_true, BitVec.and_allOnes, imp_iff_right rfl]
  have hl' : (fieldL w && fieldL r.mask) = false ↔ (r.op.usesL = false → fieldL w = false) := by
    rw [hl]
    cases r.op.usesL <;> simp
  have hv' : (fieldV w && fieldV r.mask) = false ↔ (r.op.usesV = false → fieldV w = false) := by
    rw [hv]
    cases r.op.usesV <;> simp
  rw [Row.selects, beq_iff_eq, word_eq_iff_fields, hpat]
  rw [fieldOP_packWord, fieldV_packWord, fieldL_packWord, fieldRSVL_packWord, fieldIDX_packWord, fieldRSVH_packWord]
  rw [fieldOP_and, fieldV_and, fieldL_and, fieldRSVL_and, fieldIDX_and, fieldRSVH_and, hidx', hl', hv', hop, hrsvl, hrsvh,
    BitVec.and_allOnes, BitVec.and_allOnes, BitVec.and_allOnes]
  rw [Bool.or_eq_false_iff, unusedSet_eq_false_iff, reservedSet_eq_false_iff, opOfField_eq_some_iff]
  constructor
  · rintro ⟨hop, hv, hl, hrsvl, hidx, hrsvh⟩
    exact ⟨hop.symm, ⟨hrsvh, hrsvl⟩, hidx, hl, hv⟩
  · rintro ⟨hop, ⟨hrsvh, hrsvl⟩, hidx, hl, hv⟩
    exact ⟨hop.symm, hv, hl, hrsvl, hidx, hrsvh⟩

/-- Settles O4: by `selects_iff` the row selected is that of the word's operation, if the word passes the decoder's check;
in the largest build no index is out of range. -/
theorem everyWordSelectsOneRowOrFaults : Obligations.EveryWordSelectsOneRowOrFaults := by
  intro w
  cases hop : opOfField (fieldOP w) with
  | none =>
    refine .inr ⟨fun r hr => ?_, .inl (decode_of_illegalOp hop)⟩
    rw [← Bool.not_eq_true, selects_iff hr, hop]
    simp
  | some op =>
    cases hclear : reservedSet w || unusedSet op w with
    | true =>
      have hhome : op.port = homePort w := by simp [homePort, hop]
      refine .inr ⟨fun r hr => ?_, .inr (decode_of_reserved hop hhome hclear)⟩
      rw [← Bool.not_eq_true, selects_iff hr, hop]
      rintro ⟨hrow, hnone⟩
      cases hrow
      rw [hclear] at hnone
      cases hnone
    | false =>
      obtain ⟨r, hr, rfl⟩ := exists_row op
      refine .inl ⟨r, hr, (selects_iff hr).mpr ⟨hop, hclear⟩, fun q hq hsel => ?_,
        _, decode_of_legal hop rfl hclear fun _ => (fieldIDX w).isLt, r.op.op_instr _ _ _⟩
      have hsame : some r.op = some q.op := hop.symm.trans ((selects_iff hq).mp hsel).1
      exact row_eq_of_op_eq q hq r hr (Option.some.inj hsame).symm

end Sys2Proof
end

section
/-! PROOFS. The words of the assembler (spec/30_encoding.md R82, R83), the fault of an unassigned `OP` (R75), and the
layout of a response word (R80). -/

namespace Sys2Proof.Machine

/-! ## Sample words -/

/-- Settles O5: each word is closed, and the decoder runs on it. -/
theorem sampleWordsDecode : Obligations.SampleWordsDecode := by
  refine ⟨decode_produceWord 16, decode_consumeWord 16, ?_, ?_, ?_⟩ <;> decide

/-! ## The assembler -/

theorem assemble_word (port : Option Port) (c : AsmCommand) : (assemble ⟨port, c⟩).word = encode c.instr := rfl

/-- Lines of one instruction and one snapshot present the same. -/
theorem assemble_congr {c d : AsmCommand} (port : Option Port) (hinstr : c.instr = d.instr) (hsnap : c.snap = d.snap) :
    assemble ⟨port, c⟩ = assemble ⟨port, d⟩ := by
  simp only [assemble, hinstr, hsnap]

/-- Settles O7: a pseudo-instruction is its expansion's instruction, and neither has a snapshot. -/
theorem pseudoInstructionsExpand : Obligations.PseudoInstructionsExpand := fun port _ _ =>
  ⟨assemble_congr port rfl rfl, assemble_congr port rfl rfl, assemble_congr port rfl rfl, assemble_congr port rfl rfl⟩

/-- Settles O6: an assembled word is the or of its shifted fields, and a field not used leaves nothing. -/
theorem assembledWordsFollowTheTable : Obligations.AssembledWordsFollowTheTable := by
  intro port x i v
  simp [assemble_word, encode, packWord_eq_or, AsmCommand.instr, Instr.fields, Instr.op, Op.code, Behaviour.bit]

/-! ## Unassigned operations -/

theorem fltReply_eq_answer (s : State) : fltReply s = s.ports.answer (Response.word { flt := true }) none none := by
  unfold fltReply
  cases hport : s.ports.active with
  | p => exact (Ports.answer_of_p hport ..).symm
  | m => exact (Ports.answer_of_m hport ..).symm

/-- Fault entry writes `FAULT` and the ports, nothing else (R144). -/
theorem raise_eq (c : Fault) (s : State) :
    raise c s = { s with fault := packFault c s.ports.active s.ports.cmd, ports := fltReply s } := by
  rw [fltReply_eq_answer]
  rfl

theorem records_packFault (c : Fault) (port : Port) (w : Word) : Records (packFault c port w) c.code port w := by
  refine ⟨faultValid_packFault .., faultCode_packFault .., ?_, faultReserved_packFault .., faultCmd_packFault ..⟩
  rw [faultPort_packFault]
  cases port <;> rfl

/-- The step on a command that faults in decoding is the fault entry (R147). -/
theorem step_of_decodeFault {s t : State} {c : Fault} (ha : arrival s = (.command, t)) (hrun : halted t = false)
    (hfault : fetch t = .error c) : step s = .next (raise c t) := by
  rw [step_of_command ha]
  simp [commandStep, hrun, hfault]

/-- Settles O15: an unassigned `OP` selects no operation, so decoding faults with code 1 whatever the port. -/
theorem unassignedOperationsFault : Obligations.UnassignedOperationsFault := by
  refine ⟨fun s t ha hrun hop => ⟨(arrival_frame ha).1, _, ?_, records_packFault .illegalOp _ _⟩, rfl⟩
  rw [← raise_eq]
  exact step_of_decodeFault ha hrun (decode_of_illegalOp ((opOfField_eq_none_iff _).mpr hop))

/-! ## Response words -/

/-- Settles O23: the value of a concatenation is a sum of its fields at their weights. -/
theorem responseWordLayout : Obligations.ResponseWordLayout := by
  intro r
  simp only [Response.word, toNat_append_eq_add, BitVec.toNat_ofBool, BitVec.toNat_ofNat]
  omega

end Sys2Proof.Machine
end

section
/-! PROOFS. The two ring commands one at a time (spec/40_ring_buffer.md R90 to R95): what each leaves in the state. -/

namespace Sys2Proof.Machine

section
variable {s : State}

/-! ## A legal ring command is its effect, and the response of each port -/

theorem exec_rbProduce_of_legal (hrun : halted s = false) (hport : s.ports.active = .p) :
    exec .rbProduce s = .next (produceEffect s) :=
  congrArg Host.Outcome.next (command_of_legal hrun hport)

theorem exec_rbConsume_of_legal (hrun : halted s = false) (hport : s.ports.active = .m) :
    exec .rbConsume s = .next (consumeEffect s) :=
  congrArg Host.Outcome.next (command_of_legal hrun hport)

theorem respond_eq_pReply (hport : s.ports.active = .p) (r : Response) :
    respond r s = { s with ports := pReply s r.word } :=
  congrArg (fun io => { s with ports := io }) (Ports.answer_of_p hport ..)

theorem respond_eq_mReply (hport : s.ports.active = .m) (r : Response) :
    respond r s = { s with ports := mReply s r.word none none } :=
  congrArg (fun io => { s with ports := io }) (Ports.answer_of_m hport ..)

theorem respondSnap_eq_mReply (hport : s.ports.active = .m) (r : Response) (x : Snapshot) :
    respondSnap r x s = { s with ports := mReply s r.word (some x) none } :=
  congrArg (fun io => { s with ports := io }) (Ports.answer_of_m hport ..)

/-! ## The branches of the two effects -/

theorem produceEffect_of_full (hfull : s.count = s.params.D) : produceEffect s = respond {} s := by
  rcases produceEffect_cases s with ⟨_, e⟩ | ⟨hroom, _⟩
  · exact e
  · exact absurd hfull hroom

theorem produceEffect_of_room (hroom : s.count ≠ s.params.D) :
    produceEffect s = respond {} (s.pushed s.ports.snapIn) := by
  rcases produceEffect_cases s with ⟨hfull, _⟩ | ⟨_, e⟩
  · exact absurd hfull hroom
  · exact e

theorem consumeEffect_of_empty (hempty : s.count = 0) : consumeEffect s = respond {} s := by
  rcases consumeEffect_cases s with ⟨_, e⟩ | ⟨hheld, _⟩ | ⟨hheld, _⟩
  · exact e
  · exact absurd hempty hheld
  · exact absurd hempty hheld

theorem consumeEffect_of_unwritten (hheld : s.count ≠ 0)
    (hread : Slots.read s.buf ((s.tail + 1) % s.params.D) = none) : consumeEffect s = raise .unwritten s := by
  rcases consumeEffect_cases s with ⟨hempty, _⟩ | ⟨_, _, e⟩ | ⟨_, _, hread', _⟩
  · exact absurd hempty hheld
  · exact e
  · exact nomatch hread.symm.trans hread'

theorem consumeEffect_of_held {x : Snapshot} (hheld : s.count ≠ 0)
    (hread : Slots.read s.buf ((s.tail + 1) % s.params.D) = some x) :
    consumeEffect s = respondSnap { present := true } x (s.popped x) := by
  rcases consumeEffect_cases s with ⟨hempty, _⟩ | ⟨_, hread', _⟩ | ⟨_, _, hread', e⟩
  · exact absurd hempty hheld
  · exact nomatch hread.symm.trans hread'
  · cases hread.symm.trans hread'
    exact e

end

/-! ## Each ring command alone -/

/-- Settles O27: the update is `State.pushed`, and a slot reads as what was last written to it. -/
theorem produceStoresTheSnapshot : Obligations.ProduceStoresTheSnapshot := by
  intro s hrun hport hroom
  refine ⟨(s.pushed s.ports.snapIn).buf, ?_, ?_, fun k hk => ?_⟩
  · rw [exec_rbProduce_of_legal hrun hport, produceEffect_of_room hroom,
      respond_eq_pReply (s := s.pushed _) hport]
    rfl
  · rw [Slots.read_write, if_pos rfl]
  · rw [Slots.read_write, if_neg hk]

/-- Settles O28: a produce into a full ring only answers. -/
theorem produceIntoFullRingDrops : Obligations.ProduceIntoFullRingDrops := by
  intro s hrun hport hfull
  rw [exec_rbProduce_of_legal hrun hport, produceEffect_of_full hfull, respond_eq_pReply hport]
  rfl

/-- Settles O29: the update is `State.popped`, and the answer carries the snapshot it copies. -/
theorem consumeReturnsTheOldestSnapshot : Obligations.ConsumeReturnsTheOldestSnapshot := by
  intro s x hrun hport hheld hread
  rw [exec_rbConsume_of_legal hrun hport, consumeEffect_of_held hheld hread,
    respondSnap_eq_mReply (s := s.popped x) hport]
  rfl

/-- Settles O30: a consume from an empty ring only answers. -/
theorem consumeFromEmptyRingReturnsNothing : Obligations.ConsumeFromEmptyRingReturnsNothing := by
  intro s hrun hport hempty
  rw [exec_rbConsume_of_legal hrun hport, consumeEffect_of_empty hempty, respond_eq_mReply hport]
  rfl

/-- Settles O31: the command is the fault entry with code 5, which writes `FAULT` and the ports alone. -/
theorem consumeOfUnwrittenSlotFaults : Obligations.ConsumeOfUnwrittenSlotFaults := by
  intro s hrun hport hheld hread
  refine ⟨packFault .unwritten s.ports.active s.ports.cmd, ?_, ?_⟩
  · rw [exec_rbConsume_of_legal hrun hport, consumeEffect_of_unwritten hheld hread, raise_eq]
  · rw [hport]
    exact records_packFault ..

/-! ## `RDSNAP` and `M.SNAP_OUT` -/

section
variable {s t : State} {o : Option Op} {x : Snapshot}

/-- Only a consume's update drives `M.SNAP_OUT`, and it copies what it drives to `RDSNAP` (R81, R93). -/
theorem CommandEffect.consume_of_snapOut (h : CommandEffect s o t) (hout : t.ports.snapOut = some x) :
    o = some .rbConsume ∧ s.ports.active = .m ∧ s.count ≠ 0 ∧ t.rdsnap = some x ∧ t.ports.mRsp = some 0x00000001 := by
  cases h with
  | consumed y hm hheld _ =>
    rw [respondSnap_eq_mReply (s := s.popped y) hm] at hout ⊢
    exact ⟨rfl, hm, hheld, hout, rfl⟩
  | _ => simp at hout

theorem CommandEffect.rdsnap_eq_of_no_snapOut (h : CommandEffect s o t) (hout : t.ports.snapOut = none) :
    t.rdsnap = s.rdsnap := by
  cases h with
  | consumed => simp at hout
  | _ => rfl

/-- A command that drives `M.SNAP_OUT` is a decoded `RB_CONSUME`. -/
theorem fetch_of_snapOut (h : commandStep s = .next t) (hout : t.ports.snapOut = some x) :
    fetch s = .ok .rbConsume := by
  rcases commandStep_cases s with ⟨_, e⟩ | ⟨_, c, _, e⟩ | ⟨_, i, hfetch, e⟩ <;> rw [e] at h
  · cases h
    simp at hout
  · cases h
    simp at hout
  · obtain ⟨o, heffect, hown⟩ := exec_servedAs h
    have hop : .rbConsume = i.op := hown _ (heffect.consume_of_snapOut hout).1
    cases i <;> cases hop
    exact hfetch

end

/-- Settles O38: an idle step and the reset drive nothing, and of a command's effects the consume's update alone writes
`RDSNAP` or drives `M.SNAP_OUT`. -/
theorem readSnapshotChangesOnlyAtAConsume : Obligations.ReadSnapshotChangesOnlyAtAConsume := by
  intro s t h
  have rdsnap_eq : ∀ {a u}, arrival s = (a, u) → u.rdsnap = s.rdsnap :=
    fun ha => congrArg Block.rdsnap (arrival_frame ha).1
  rcases step_effect h with ⟨u, ha, rfl⟩ | ⟨u, ha, rfl⟩ | ⟨u, o, ha, heffect⟩
  · exact ⟨fun _ hne => absurd (rdsnap_eq ha) hne, nofun⟩
  · exact ⟨fun _ _ => turns_of_arrival_reset ha, nofun⟩
  · refine ⟨fun hout hne => absurd ((heffect.rdsnap_eq_of_no_snapOut hout).trans (rdsnap_eq ha)) hne, fun x hout => ?_⟩
    obtain ⟨-, hm, hheld, hrdsnap, hrsp⟩ := heffect.consume_of_snapOut hout
    exact ⟨hrdsnap, hrsp, u, ha, hm, fetch_of_snapOut (step_of_command ha ▸ h) hout, hheld⟩

end Sys2Proof.Machine
end

section
/-! PROOFS. The ring as a queue (spec/40_ring_buffer.md R96 to R101): the part of the invariant the ring needs, what a
step accepts and returns, and the queue over one step and over a run. -/

namespace Sys2Proof

theorem port_eq_of_decode {n : Nat} {port : Port} {w : Word} {i : Instr} (hdecode : decode n port w = .ok i) :
    i.op.port = port := by
  obtain ⟨op, _, hport, _, _, rfl⟩ := decode_eq_ok_iff.mp hdecode
  rwa [Op.op_instr]

end Sys2Proof

namespace Sys2Proof.Machine

/-- The elements of the state that the ring consists of (R26 to R30), with the build's parameters. -/
structure Ring where
  params : Params
  head : Nat
  tail : Nat
  count : Nat
  buf : Slots
  rdsnap : Option Snapshot

def State.ring (s : State) : Ring :=
  { params := s.params, head := s.head, tail := s.tail, count := s.count, buf := s.buf, rdsnap := s.rdsnap }

/-- What `StateInv` says of the ring, the widths of the snapshots left out: it holds in a run whatever number of bytes
agent P presents. -/
structure RingInv (s : State) : Prop where
  head_lt : s.head < s.params.D
  tail_lt : s.tail < s.params.D
  count_le : s.count ≤ s.params.D
  cursors : s.head = (s.tail + s.count) % s.params.D
  /-- No live slot holds `UNSPEC` (R39). -/
  written : none ∉ live s
  /-- There are no slots but `0 .. D-1` (R29). -/
  unlisted : ∀ k, s.params.D ≤ k → Slots.read s.buf k = none

/-- What a step does to the ring: `RingStep s accepted t` leads from `s` to `t`, and `t` shows what was returned on
`M.SNAP_OUT`. -/
inductive RingStep (s : State) : Option Snapshot → State → Prop
  | kept {t : State} : t.ring = s.ring → t.ports.snapOut = none → RingStep s none t
  | stored {t : State} (x : Snapshot) : s.count ≠ s.params.D → t.ring = (s.pushed x).ring → t.ports.snapOut = none →
      RingStep s (some x) t
  | returned {t : State} (x : Snapshot) : s.count ≠ 0 → Slots.read s.buf ((s.tail + 1) % s.params.D) = some x →
      t.ring = (s.popped x).ring → t.ports.snapOut = some x → RingStep s none t

section
variable {s t u : State} {accepted : Option Snapshot} {x : Snapshot}

/-! ## States with the same ring -/

theorem ring_of_arrival {a : Arrival} (ha : arrival s = (a, u)) : u.ring = s.ring := by
  obtain ⟨hblock, hparams⟩ := arrival_frame ha
  obtain ⟨hhead, htail, hcount, hbuf, hrdsnap, -⟩ := Block.mk.inj hblock
  simp only [State.ring, hparams, hhead, htail, hcount, hbuf, hrdsnap]

theorem live_of_ring_eq (h : t.ring = s.ring) : live t = live s := by
  obtain ⟨hparams, -, htail, hcount, hbuf, -⟩ := Ring.mk.inj h
  simp only [live, liveSlots, hparams, htail, hcount, hbuf]

theorem RingInv.of_ring_eq (hs : RingInv s) (h : t.ring = s.ring) : RingInv t := by
  have hlive := live_of_ring_eq h
  obtain ⟨hparams, hhead, htail, hcount, hbuf, -⟩ := Ring.mk.inj h
  constructor
  · rw [hhead, hparams]; exact hs.head_lt
  · rw [htail, hparams]; exact hs.tail_lt
  · rw [hcount, hparams]; exact hs.count_le
  · rw [hhead, htail, hcount, hparams]; exact hs.cursors
  · rw [hlive]; exact hs.written
  · rw [hbuf, hparams]; exact hs.unlisted

/-- What a step does from `u` it does from any state with the same ring. -/
theorem RingStep.of_ring_eq (h : RingStep u accepted t) (hring : u.ring = s.ring) : RingStep s accepted t := by
  obtain ⟨hparams, hhead, htail, hcount, hbuf, hrdsnap⟩ := Ring.mk.inj hring
  cases h with
  | kept e hout => exact .kept (e.trans hring) hout
  | stored x hroom e hout =>
    refine .stored x (hcount ▸ hparams ▸ hroom) (e.trans ?_) hout
    simp only [State.ring, *]
  | returned x hheld hread e hout =>
    refine .returned x (hcount ▸ hheld) (by rw [← hbuf, ← htail, ← hparams]; exact hread) (e.trans ?_) hout
    simp only [State.ring, *]

/-! ## The live snapshots, whatever their widths -/

theorem StateInv.ringInv (h : StateInv s) : RingInv s where
  head_lt := h.head_lt
  tail_lt := h.tail_lt
  count_le := h.count_le
  cursors := h.cursors
  written := fun hmem => by
    obtain ⟨k, hk, hread⟩ := List.mem_map.mp hmem
    simpa [hread] using h.live_written k hk
  unlisted := fun k hk => by
    by_contra hne
    obtain ⟨x, hread⟩ := Option.ne_none_iff_exists'.mp hne
    exact absurd (h.buf_slots _ (Slots.mem_of_read hread)).1 (Nat.not_lt.mpr hk)

/-- The live slots are distinct: `COUNT` slots in a row do not wrap around onto themselves. -/
theorem nodup_liveSlots (hcount : s.count ≤ s.params.D) : (liveSlots s).Nodup := by
  refine List.nodup_range.map_on fun i hi j hj hslot => ?_
  have hmod : i % s.params.D = j % s.params.D := Nat.ModEq.add_left_cancel' _ hslot
  rw [List.mem_range] at hi hj
  rwa [Nat.mod_eq_of_lt (by omega), Nat.mod_eq_of_lt (by omega)] at hmod

theorem RingInv.liveSlots_pushed (h : RingInv s) (x : Snapshot) :
    liveSlots (s.pushed x) = liveSlots s ++ [(s.head + 1) % s.params.D] := by
  have hslot : (s.head + 1) % s.params.D = (s.tail + 1 + s.count) % s.params.D := by
    rw [h.cursors, Nat.mod_add_mod, Nat.add_right_comm]
  rw [hslot, Machine.liveSlots_pushed]

theorem RingInv.live_pushed (h : RingInv s) (hroom : s.count ≠ s.params.D) (x : Snapshot) :
    live (s.pushed x) = live s ++ [some x] := by
  have hfresh : (s.head + 1) % s.params.D ∉ liveSlots s := by
    have hnodup := nodup_liveSlots (s := s.pushed x) (Nat.lt_of_le_of_ne h.count_le hroom)
    rw [h.liveSlots_pushed] at hnodup
    exact fun hmem => (List.nodup_append.mp hnodup).2.2 _ hmem _ List.mem_cons_self rfl
  have hkept : ∀ k ∈ liveSlots s, Slots.read (s.pushed x).buf k = Slots.read s.buf k := fun k hk => by
    rw [Slots.read_write, if_neg (ne_of_mem_of_not_mem hk hfresh)]
  simp only [live, h.liveSlots_pushed, List.map_append, List.map_congr_left hkept, List.map_singleton, Slots.read_write,
    if_true]

theorem length_live (s : State) : (live s).length = s.count := by
  simp [live, liveSlots]

theorem RingInv.push (h : RingInv s) (hroom : s.count ≠ s.params.D) (x : Snapshot) : RingInv (s.pushed x) :=
  have slot_lt : (s.head + 1) % s.params.D < s.params.D := Nat.mod_lt _ s.params.hD.1
  { head_lt := slot_lt
    tail_lt := h.tail_lt
    count_le := Nat.lt_of_le_of_ne h.count_le hroom
    cursors := by
      show (s.head + 1) % s.params.D = (s.tail + (s.count + 1)) % s.params.D
      rw [h.cursors, Nat.mod_add_mod, Nat.add_assoc]
    written := by simpa [h.live_pushed hroom] using h.written
    unlisted := fun k hk => by
      have hne : k ≠ (s.head + 1) % s.params.D := (Nat.lt_of_lt_of_le slot_lt hk).ne'
      rw [Slots.read_write, if_neg hne]
      exact h.unlisted k hk }

theorem RingInv.pop (h : RingInv s) (hheld : s.count ≠ 0) (x : Snapshot) : RingInv (s.popped x) where
  head_lt := h.head_lt
  tail_lt := Nat.mod_lt _ s.params.hD.1
  count_le := (Nat.sub_le ..).trans h.count_le
  cursors := by
    show s.head = ((s.tail + 1) % s.params.D + (s.count - 1)) % s.params.D
    rw [h.cursors, Nat.mod_add_mod, Nat.add_assoc, Nat.add_sub_cancel' (Nat.pos_of_ne_zero hheld)]
  written := fun hmem => h.written (live_eq_cons_popped hheld x ▸ List.mem_cons_of_mem _ hmem)
  unlisted := h.unlisted

/-- The oldest slot of a ring that is not empty is written, so no consume reads `UNSPEC` (R98). -/
theorem RingInv.oldest_ne_none (h : RingInv s) (hheld : s.count ≠ 0) :
    Slots.read s.buf ((s.tail + 1) % s.params.D) ≠ none := fun hread =>
  h.written (by rw [live_eq_cons_popped hheld [], hread]; exact List.mem_cons_self)

/-! ## One step of the ring -/

theorem RingStep.ringInv (h : RingStep s accepted t) (hs : RingInv s) : RingInv t := by
  cases h with
  | kept e _ => exact hs.of_ring_eq e
  | stored x hroom e _ => exact (hs.push hroom x).of_ring_eq e
  | returned x hheld _ e _ => exact (hs.pop hheld x).of_ring_eq e

/-- The live snapshots and then the accepted one are the returned one and then the live ones after. -/
theorem RingStep.live_eq (h : RingStep s accepted t) (hs : RingInv s) :
    live s ++ accepted.toList.map some = t.ports.snapOut.toList.map some ++ live t := by
  cases h with
  | kept e hout => simp [hout, live_of_ring_eq e]
  | stored x hroom e hout => simp [hout, live_of_ring_eq e, hs.live_pushed hroom]
  | returned x hheld hread e hout => simp [hout, live_of_ring_eq e, live_eq_cons_popped hheld x, hread]

/-! ## What a command does to the ring -/

/-- Any effect but a produce's update keeps the ring, or returns what it drives on `M.SNAP_OUT`. -/
theorem CommandEffect.ringStep {o : Option Op} (h : CommandEffect s o t) (hno : o ≠ some .rbProduce) :
    RingStep s none t := by
  cases h with
  | produced => exact absurd rfl hno
  | consumed x _ hheld hread => exact .returned x hheld hread rfl (by simp)
  | _ => exact .kept rfl (by simp)

theorem ringStep_produceEffect (s : State) :
    RingStep s (if s.count = s.params.D then none else some s.ports.snapIn) (produceEffect s) := by
  split
  · next hfull =>
    rw [produceEffect_of_full hfull]
    exact .kept rfl (by simp)
  · next hroom =>
    rw [produceEffect_of_room hroom]
    exact .stored _ hroom rfl (by simp)

/-! ## What a step accepts (R97) -/

theorem acceptedAt_of_no_command {a : Arrival} (ha : arrival s = (a, u)) (hno : a ≠ .command) :
    acceptedAt s = none := by
  cases a with
  | command => exact absurd rfl hno
  | idle | reset => simp [acceptedAt, ha]

theorem acceptedAt_of_no_produce (ha : arrival s = (.command, u)) (hno : fetch u ≠ .ok .rbProduce) :
    acceptedAt s = none := by
  cases hfetch : fetch u with
  | error c => simp [acceptedAt, ha, hfetch]
  | ok i =>
    cases i with
    | rbProduce => exact absurd hfetch hno
    | _ => simp [acceptedAt, ha, hfetch]

theorem acceptedAt_of_halted (ha : arrival s = (.command, u)) (hhalt : halted u = true) : acceptedAt s = none := by
  simp only [acceptedAt, ha, hhalt, Bool.true_or, if_true]
  split <;> rfl

theorem acceptedAt_of_produce (ha : arrival s = (.command, u)) (hrun : halted u = false)
    (hfetch : fetch u = .ok .rbProduce) :
    acceptedAt s = if u.count = u.params.D then none else some u.ports.snapIn := by
  simp [acceptedAt, ha, hrun, hfetch, full, snapOperand]

theorem ringStep_of_command (ha : arrival s = (.command, u)) (h : commandStep u = .next t) :
    RingStep u (acceptedAt s) t := by
  rcases commandStep_cases u with ⟨hhalt, e⟩ | ⟨_, c, hfetch, e⟩ | ⟨hrun, i, hfetch, e⟩ <;> rw [e] at h
  · cases h
    rw [acceptedAt_of_halted ha hhalt]
    exact (CommandEffect.answered _).ringStep nofun
  · cases h
    rw [acceptedAt_of_no_produce ha (by rw [hfetch]; nofun)]
    exact (CommandEffect.faulted c).ringStep nofun
  · by_cases hproduce : i = .rbProduce
    · subst hproduce
      rw [exec_rbProduce_of_legal hrun (port_eq_of_decode hfetch).symm] at h
      cases h
      rw [acceptedAt_of_produce ha hrun hfetch]
      exact ringStep_produceEffect u
    · obtain ⟨o, heffect, hown⟩ := exec_servedAs h
      rw [acceptedAt_of_no_produce ha (by rw [hfetch]; simpa using hproduce)]
      refine heffect.ringStep fun ho => hproduce ?_
      have hop : .rbProduce = i.op := hown _ ho
      cases i <;> cases hop
      rfl

/-- Every step but the global reset is a step of the ring, with what it accepts and what it returns. -/
theorem step_ringStep (h : step s = .next t) (hno : ∀ ts, s.turns ≠ .reset :: ts) :
    RingStep s (acceptedAt s) t := by
  rcases step_effect h with ⟨u, ha, rfl⟩ | ⟨u, ha, rfl⟩ | ⟨u, _, ha, _⟩
  · rw [acceptedAt_of_no_command ha nofun]
    exact .kept (ring_of_arrival (u := u) ha) rfl
  · obtain ⟨ts, hts⟩ := turns_of_arrival_reset ha
    exact absurd hts (hno ts)
  · exact (ringStep_of_command ha (step_of_command ha ▸ h)).of_ring_eq (ring_of_arrival ha)

end

/-- Settles O59: the step is one of the ring's, and each of those keeps the queue. -/
theorem everyStepKeepsTheQueue : Obligations.EveryStepKeepsTheQueue := fun _ _ hs h hno =>
  (step_ringStep h hno).live_eq hs.ringInv

/-- Settles O32: the two updates of the ring, read off the list of live snapshots. -/
theorem ringIsAQueue : Obligations.RingIsAQueue := by
  intro s t hs hrun
  refine ⟨fun hport hroom h => ?_, fun hport hheld h => ?_⟩
  · rw [exec_rbProduce_of_legal hrun hport, produceEffect_of_room hroom] at h
    cases h
    exact hs.live_pushed hroom _
  · obtain ⟨x, hread⟩ := hs.exists_oldest hheld
    rw [exec_rbConsume_of_legal hrun hport, consumeEffect_of_held hheld hread] at h
    cases h
    exact ⟨x, hread ▸ live_eq_cons_popped hheld x, by simp, rfl⟩

/-! ## Runs -/

section
variable {s t : State}

theorem ringInv_globalReset (s : State) : RingInv (globalReset s) where
  head_lt := s.params.hD.1
  tail_lt := s.params.hD.1
  count_le := Nat.zero_le _
  cursors := (Nat.zero_mod _).symm
  written := nofun
  unlisted := fun _ _ => rfl

/-- A run starts with the ring of a state just reset. -/
theorem ringInv_start (cfg : Params) (pq : List PCommand) (mq : List Word) (ts : List Turn) :
    RingInv (State.start cfg pq mq ts) :=
  ringInv_globalReset (State.start cfg pq mq ts)

theorem step_ringInv (hs : RingInv s) (h : step s = .next t) : RingInv t := by
  by_cases hreset : ∃ ts, s.turns = .reset :: ts
  · obtain ⟨ts, hturn⟩ := hreset
    simp only [step, arrival, hturn] at h
    cases h
    exact ringInv_globalReset _
  · exact (step_ringStep h (not_exists.mp hreset)).ringInv hs

/-- The queue over a run without a reset: each step's accepted snapshot joins at the end, its returned one leaves at the
front. -/
theorem RingInv.live_after : ∀ (k : Nat) {s : State}, RingInv s → .reset ∉ s.turns →
    live s ++ (acceptedIn k s).map some = (returnedIn k s).map some ++ live (after k s)
  | 0, _, _, _ => by simp [acceptedIn, returnedIn, after]
  | k + 1, s, hs, hno => by
    obtain ⟨t, h⟩ := step_answers s
    have hnext : nextState s = t := by simp [nextState, h]
    have hno' : .reset ∉ t.turns := step_turns h ▸ fun hmem => hno (List.mem_of_mem_tail hmem)
    have hstep := (step_ringStep h fun ts hturn => hno (by simp [hturn])).live_eq hs
    have hrest := RingInv.live_after k (step_ringInv hs h) hno'
    simp only [acceptedIn, returnedIn, after, hnext, List.map_append]
    rw [← List.append_assoc, hstep, List.append_assoc, hrest, List.append_assoc]

end

/-- Settles O33: a run starts with no live snapshot. -/
theorem consumerReceivesAcceptedSnapshotsInOrder : Obligations.ConsumerReceivesAcceptedSnapshotsInOrder := by
  intro cfg pq mq ts k hno
  have hqueue := (ringInv_start cfg pq mq ts).live_after k hno
  rwa [live_eq_nil rfl, List.nil_append] at hqueue

/-- Settles O34: the lengths of the two sides of O33; there are `COUNT` live snapshots. -/
theorem countIsAcceptedLessReturned : Obligations.CountIsAcceptedLessReturned := by
  intro cfg pq mq ts k hno
  simpa [length_live] using congrArg List.length (consumerReceivesAcceptedSnapshotsInOrder cfg pq mq ts k hno)

/-- Settles O37: with one slot the cursors have one value, and a run keeps the parameters. -/
theorem ringOfDepthOne : Obligations.RingOfDepthOne := by
  intro cfg pq mq ts k hdepth
  obtain ⟨hparams, hinv⟩ :
      (after k (State.start cfg pq mq ts)).params = cfg ∧ RingInv (after k (State.start cfg pq mq ts)) := by
    refine after_induction (P := fun s => s.params = cfg ∧ RingInv s) ?_ k _ ⟨rfl, ringInv_start cfg pq mq ts⟩
    rintro s t ⟨hparams, hs⟩ h
    exact ⟨(step_params h).trans hparams, step_ringInv hs h⟩
  obtain ⟨hhead, htail, hcount, -, -, hunlisted⟩ := hinv
  rw [hparams, hdepth] at hhead htail hcount hunlisted
  exact ⟨Nat.lt_one_iff.mp hhead, Nat.lt_one_iff.mp htail, hcount, fun j hj => hunlisted j (Nat.pos_of_ne_zero hj)⟩

/-! ## Fault code 5 is not recorded -/

section
variable {s t : State}

theorem faultCode_raise_ne {c : Fault} (hc : c ≠ .unwritten) (s : State) : faultCode (raise c s).fault ≠ 5 := by
  rw [raise_fault, faultCode_packFault]
  cases c with
  | unwritten => exact absurd rfl hc
  | _ => decide

theorem decode_ne_unwritten {n : Nat} {port : Port} {w : Word} {c : Fault} (hdecode : decode n port w = .error c) :
    c ≠ .unwritten := by
  rcases decode_cases n port w with ⟨_, e⟩ | ⟨op, _, ⟨_, e⟩ | ⟨_, _, e⟩ | ⟨_, _, _, _, e⟩ | ⟨_, _, _, e⟩⟩ <;>
    rw [hdecode] at e <;> cases e <;> nofun

theorem faultCode_command_ne {op : Op} {effect : State → State} (hs : faultCode s.fault ≠ 5)
    (heffect : faultCode (effect s).fault ≠ 5) : faultCode (command op effect s).fault ≠ 5 := by
  rcases command_cases op effect s with ⟨_, e⟩ | ⟨_, _, e⟩ | ⟨_, _, e⟩ <;> rw [e]
  · exact hs
  · exact heffect
  · exact faultCode_raise_ne (by decide) s

theorem faultCode_buttonCommand_ne {op : Op} {idx : BitVec 16} {effect : Nat → State → State}
    (hs : faultCode s.fault ≠ 5) (heffect : (effect idx.toNat s).fault = s.fault) :
    faultCode (buttonCommand op idx effect s).fault ≠ 5 := by
  refine faultCode_command_ne hs ?_
  split
  · rwa [heffect]
  · exact faultCode_raise_ne (by decide) s

/-- A consume takes fault code 5 on an unwritten slot alone, and no other instruction takes it. -/
theorem faultCode_exec_ne {i : Instr} (h : exec i s = .next t) (hinv : RingInv s) (hs : faultCode s.fault ≠ 5) :
    faultCode t.fault ≠ 5 := by
  cases i <;> cases h
  case rbProduce =>
    refine faultCode_command_ne hs ?_
    rwa [(produceEffect_frame s).1]
  case rbConsume =>
    refine faultCode_command_ne hs ?_
    rcases consumeEffect_cases s with ⟨_, e⟩ | ⟨hheld, hread, _⟩ | ⟨_, _, _, e⟩
    · rwa [e]
    · exact absurd hread (hinv.oldest_ne_none hheld)
    · rwa [e]
  case bsEdge idx v l =>
    obtain ⟨_, e⟩ := edgeEffect_eq_buttoned s idx v l
    exact faultCode_buttonCommand_ne hs (by rw [e])
  all_goals exact faultCode_buttonCommand_ne hs rfl

theorem faultCode_step_ne (h : step s = .next t) (hinv : RingInv s) (hs : faultCode s.fault ≠ 5) :
    faultCode t.fault ≠ 5 := by
  have fault_eq : ∀ {a u}, arrival s = (a, u) → u.fault = s.fault :=
    fun ha => congrArg Block.fault (arrival_frame ha).1
  rcases step_cases s with ⟨u, ha, e⟩ | ⟨u, ha, e⟩ | ⟨u, ha, e⟩ <;> rw [e] at h
  · cases h
    rwa [idleStep_fault, fault_eq ha]
  · cases h
    rw [globalReset_fault]
    decide
  · rw [← fault_eq ha] at hs
    rcases commandStep_cases u with ⟨_, e⟩ | ⟨_, c, hfetch, e⟩ | ⟨_, i, _, e⟩ <;> rw [e] at h
    · cases h
      exact hs
    · cases h
      exact faultCode_raise_ne (decode_ne_unwritten hfetch) u
    · exact faultCode_exec_ne h (hinv.of_ring_eq (ring_of_arrival ha)) hs

end

/-- Settles O36: every live slot of a reachable state is written. -/
theorem noRunReadsAnUnwrittenSlot : Obligations.NoRunReadsAnUnwrittenSlot := by
  intro cfg pq mq ts k
  refine (after_induction (P := fun s => RingInv s ∧ faultCode s.fault ≠ 5) ?_ k _
    ⟨ringInv_start cfg pq mq ts, by show faultCode 0 ≠ 5; decide⟩).2
  rintro s t ⟨hinv, hs⟩ h
  exact ⟨step_ringInv hinv h, faultCode_step_ne h hinv hs⟩

end Sys2Proof.Machine
end

section
/-! PROOFS. The button file one command at a time (spec/41_button_state.md R110 to R118): what a legal `BS_` command leaves
in the state and answers, what it takes on an index out of range, and that it reaches no other index. -/

namespace Sys2Proof.Machine

/-! ## The answers of the button file (R80) -/

/-- The answer of an edge that sends the effective value `eff`. -/
def sendAnswer (eff : Bool) : Word := if eff then 0x0000001C else 0x0000000C

/-- The answer of `BS_EDGE` with operands `v` and `l` on an index that holds `pressed` and `latched`. -/
def edgeAnswer (pressed latched v : Bool) (l : Behaviour) : Word :=
  if v = pressed then 0x00000000
  else
    match l with
    | .latching => if v then sendAnswer (!latched) else 0x00000004
    | .momentary => sendAnswer v

/-- The answer of a legal `BS_` command. -/
def buttonAnswer (pressed latched : BitSet) : Instr → Word
  | .bsGetPressed idx => if bitGet pressed idx.toNat then 0x00000002 else 0x00000000
  | .bsGetLatched idx => if bitGet latched idx.toNat then 0x00000002 else 0x00000000
  | .bsEdge idx v l => edgeAnswer (bitGet pressed idx.toNat) (bitGet latched idx.toNat) v l
  | _ => 0x00000000

/-- What a legal `BS_` command drives on port `DBR`. -/
def dbrDriven : Instr → Option Nat
  | .bsResetIndex idx => some idx.toNat
  | _ => none

/-- The whole state after a legal `BS_` command: its update of the button file and `EVENTS`, and its answer on port M. -/
abbrev State.buttonServed (s : State) (i : Instr) : State :=
  { s.buttoned i with ports := mReply s (buttonAnswer s.pressed s.latched i) none (dbrDriven i) }

theorem word_default : Response.word {} = 0x00000000 := rfl

theorem word_bit (b : Bool) : Response.word { bit := b } = if b then 0x00000002 else 0x00000000 := by
  cases b <;> rfl

theorem word_edge : Response.word { edge := true } = 0x00000004 := rfl

theorem word_send (eff : Bool) : Response.word { edge := true, send := true, eff := eff } = sendAnswer eff := by
  cases eff <;> rfl

theorem sendAnswer_not (b : Bool) : sendAnswer (!b) = if b then 0x0000000C else 0x0000001C := by
  cases b <;> rfl

section
variable {s t : State} {i : Instr} {k : Nat} {idx : BitVec 16}

theorem respondDbr_eq_mReply (hport : s.ports.active = .m) (r : Response) (i : Nat) :
    respondDbr r i s = { s with events := s.events ++ [.dbr i], ports := mReply s r.word none (some i) } :=
  congrArg (fun io => { s with events := s.events ++ [Event.dbr i], ports := io }) (Ports.answer_of_m hport ..)

/-! ## A legal `BS_` command -/

theorem edgeEffect_eq_buttonServed (hport : s.ports.active = .m) (idx : BitVec 16) (v : Bool) (l : Behaviour) :
    edgeEffect v l idx.toNat s = s.buttonServed (.bsEdge idx v l) := by
  rcases edgeEffect_cases v l idx.toNat s with ⟨h, e⟩ | ⟨h, rfl, rfl, e⟩ | ⟨h, rfl, rfl, e⟩ | ⟨h, rfl, e⟩ <;>
    rw [e, respond_eq_mReply (by exact hport)] <;>
    simp [pressedAfter, latchedAfter, eventsAfter, buttonAnswer, edgeAnswer, dbrDriven, mReply, word_default, word_edge,
      word_send, h]

/-- Every `BS_` instruction is a `BS_` command on its index. -/
theorem exec_eq_buttonCommand (hindex : i.index? = some k) :
    ∃ idx effect, idx.toNat = k ∧ i.op.port = .m ∧ ∀ s, exec i s = .next (buttonCommand i.op idx effect s) := by
  cases i <;> cases hindex <;> exact ⟨_, _, rfl, rfl, fun _ => rfl⟩

/-- A legal `BS_` instruction makes its update and gives its answer. -/
theorem exec_of_buttonLegal (hindex : i.index? = some k) (hrun : halted s = false) (hport : s.ports.active = .m)
    (hlt : k < s.params.N) : exec i s = .next (s.buttonServed i) := by
  cases i <;> cases hindex <;>
    refine congrArg Host.Outcome.next ((buttonCommand_of_legal hrun (by exact hport) hlt).trans ?_)
  case bsGetPressed idx =>
    rw [respond_eq_mReply hport, word_bit]
    rfl
  case bsSetPressed idx v => exact respond_eq_mReply (s := s.buttoned (.bsSetPressed idx v)) hport {}
  case bsGetLatched idx =>
    rw [respond_eq_mReply hport, word_bit]
    rfl
  case bsSetLatched idx v => exact respond_eq_mReply (s := s.buttoned (.bsSetLatched idx v)) hport {}
  case bsResetIndex idx =>
    exact respondDbr_eq_mReply hport {} idx.toNat
      (s := { s with pressed := bitPut s.pressed idx.toNat false, latched := bitPut s.latched idx.toNat false })
  case bsEdge idx v l => exact edgeEffect_eq_buttonServed hport idx v l

/-! ## A `BS_` command that is not legal -/

theorem buttonCommand_of_index_out {op : Op} {effect : Nat → State → State} (hrun : halted s = false)
    (hport : s.ports.active = op.port) (hout : s.params.N ≤ idx.toNat) :
    buttonCommand op idx effect s = raise .index s := by
  simp [buttonCommand, command, portLegal, indexLegal, hrun, hport, hout]

theorem exec_of_index_out (hindex : i.index? = some k) (hrun : halted s = false) (hport : s.ports.active = .m)
    (hout : s.params.N ≤ k) : exec i s = .next (raise .index s) := by
  obtain ⟨idx, effect, rfl, hm, e⟩ := exec_eq_buttonCommand hindex
  rw [e, buttonCommand_of_index_out hrun (hport.trans hm.symm) hout]

/-- A `BS_` instruction leaves the button file alone (a halt, a fault), or it does what a legal one does. -/
theorem exec_button_cases (hindex : i.index? = some k) (h : exec i s = .next t) :
    (t.pressed = s.pressed ∧ t.latched = s.latched) ∨ t = s.buttonServed i := by
  obtain ⟨idx, effect, rfl, hm, e⟩ := exec_eq_buttonCommand hindex
  rcases buttonCommand_cases i.op idx effect s with ⟨_, e'⟩ | ⟨_, _, e'⟩ | ⟨_, _, _, e'⟩ | ⟨hrun, hport, hlt, _⟩
  case inr.inr.inr =>
    rw [exec_of_buttonLegal hindex hrun (hport.trans hm) hlt] at h
    cases h
    exact .inr rfl
  all_goals
    rw [e, e'] at h
    cases h
    exact .inl ⟨rfl, rfl⟩

/-! ## The bit-sets after an edge command -/

theorem pressedAfter_bsEdge (m : BitSet) (idx : BitVec 16) (v : Bool) (l : Behaviour) :
    pressedAfter m (.bsEdge idx v l) = if v = bitGet m idx.toNat then m else bitPut m idx.toNat v := rfl

theorem latchedAfter_bsEdge (p m : BitSet) (idx : BitVec 16) (v : Bool) (l : Behaviour) :
    latchedAfter p m (.bsEdge idx v l) =
      if v ≠ bitGet p idx.toNat ∧ v = true ∧ l = .latching then bitPut m idx.toNat (!bitGet m idx.toNat) else m := rfl

/-! ## The other indices (R116) -/

/-- `n` is `m` but for the bit of index `k`. -/
def DiffersOnlyAt (k : Nat) (m n : BitSet) : Prop :=
  (∀ j, j ≠ k → bitGet n j = bitGet m j) ∧ ∀ a, a ≠ k / 8 → Memory.read n a = Memory.read m a

theorem DiffersOnlyAt.refl (k : Nat) (m : BitSet) : DiffersOnlyAt k m m := ⟨fun _ _ => rfl, fun _ _ => rfl⟩

theorem differsOnlyAt_bitPut (k : Nat) (m : BitSet) (b : Bool) : DiffersOnlyAt k m (bitPut m k b) :=
  ⟨fun j hj => by rw [bitGet_bitPut, if_neg hj], Memory.read_bitPut_of_ne m k b⟩

theorem pressedAfter_differsOnlyAt (hindex : i.index? = some k) (m : BitSet) :
    DiffersOnlyAt k m (pressedAfter m i) := by
  cases i <;> cases hindex
  case bsGetPressed | bsGetLatched | bsSetLatched => exact .refl ..
  case bsSetPressed | bsResetIndex => exact differsOnlyAt_bitPut ..
  case bsEdge idx v l =>
    rw [pressedAfter_bsEdge]
    split
    · exact .refl ..
    · exact differsOnlyAt_bitPut ..

theorem latchedAfter_differsOnlyAt (hindex : i.index? = some k) (p m : BitSet) :
    DiffersOnlyAt k m (latchedAfter p m i) := by
  cases i <;> cases hindex
  case bsGetPressed | bsGetLatched | bsSetPressed => exact .refl ..
  case bsSetLatched | bsResetIndex => exact differsOnlyAt_bitPut ..
  case bsEdge idx v l =>
    rw [latchedAfter_bsEdge]
    split
    · exact differsOnlyAt_bitPut ..
    · exact .refl ..

theorem exec_button_differsOnlyAt (hindex : i.index? = some k) (h : exec i s = .next t) :
    DiffersOnlyAt k s.pressed t.pressed ∧ DiffersOnlyAt k s.latched t.latched := by
  rcases exec_button_cases hindex h with ⟨hpressed, hlatched⟩ | rfl
  · rw [hpressed, hlatched]
    exact ⟨.refl .., .refl ..⟩
  · exact ⟨pressedAfter_differsOnlyAt hindex _, latchedAfter_differsOnlyAt hindex _ _⟩

end

/-- Settles O26: the command is the fault entry with code 4, which writes `FAULT` and the ports alone. -/
theorem indexOutOfRangeFaults : Obligations.IndexOutOfRangeFaults := by
  intro i k s hindex hrun hport hout
  refine ⟨packFault .index s.ports.active s.ports.cmd, ?_, records_packFault ..⟩
  rw [exec_of_index_out hindex hrun hport hout, raise_eq]

/-- Settles O40: a read has no update, and this one answers from `PRESSED`. -/
theorem getPressedAnswersTheBit : Obligations.GetPressedAnswersTheBit := fun _ _ => exec_of_buttonLegal rfl

/-- Settles O41: a read has no update, and this one answers from `LATCHED`. -/
theorem getLatchedAnswersTheBit : Obligations.GetLatchedAnswersTheBit := fun _ _ => exec_of_buttonLegal rfl

/-- Settles O42: the update is one `BitPut`, which is read back bit by bit and byte by byte. -/
theorem setPressedWritesTheBit : Obligations.SetPressedWritesTheBit := by
  intro idx v s hrun hport hlt
  exact ⟨bitPut s.pressed idx.toNat v, exec_of_buttonLegal rfl hrun hport hlt, (bitGet_bitPut ..).trans (if_pos rfl),
    bitGet_bitPut s.pressed idx.toNat v, Memory.read_bitPut_of_ne s.pressed idx.toNat v⟩

/-- Settles O43: as O42, for the other bit-set. -/
theorem setLatchedWritesTheBit : Obligations.SetLatchedWritesTheBit := by
  intro idx v s hrun hport hlt
  exact ⟨bitPut s.latched idx.toNat v, exec_of_buttonLegal rfl hrun hport hlt, (bitGet_bitPut ..).trans (if_pos rfl),
    bitGet_bitPut s.latched idx.toNat v, Memory.read_bitPut_of_ne s.latched idx.toNat v⟩

/-- Settles O44: the update is a `BitPut` of 0 in each bit-set and the event appended. -/
theorem resetIndexClearsBothBits : Obligations.ResetIndexClearsBothBits := by
  intro idx s hrun hport hlt
  exact ⟨_, _, exec_of_buttonLegal rfl hrun hport hlt, bitGet_bitPut s.pressed idx.toNat false,
    bitGet_bitPut s.latched idx.toNat false,
    fun a ha => ⟨Memory.read_bitPut_of_ne _ _ _ a ha, Memory.read_bitPut_of_ne _ _ _ a ha⟩⟩

/-- Settles O51: each bit-set differs at the named index at most, and R36 says who writes which. -/
theorem onlyTheNamedIndexChanges : Obligations.OnlyTheNamedIndexChanges := by
  intro i k s t hindex h
  obtain ⟨⟨hpressedBits, hpressedBytes⟩, hlatchedBits, hlatchedBytes⟩ := exec_button_differsOnlyAt hindex h
  obtain ⟨-, -, -, hpressedWriter, hlatchedWriter, -⟩ := instructionsWriteOnlyTheirState i s t h
  refine ⟨fun j hj => ⟨hpressedBits j hj, hlatchedBits j hj⟩, fun a ha => ⟨hpressedBytes a ha, hlatchedBytes a ha⟩,
    fun hop => ?_, fun hop => ?_⟩
  · by_contra hne
    simpa [hop] using hlatchedWriter hne
  · by_contra hne
    simpa [hop] using hpressedWriter hne

end Sys2Proof.Machine
end

section
/-! PROOFS. Edges (spec/41_button_state.md R119 to R123): the two bits of an index after a `BS_EDGE`, what it answers, and
how the latch alternates over a run of presses. -/

namespace Sys2Proof.Machine

section
variable {s t : State} {idx : BitVec 16}

/-! ## The bits after an edge command -/

/-- After `BS_EDGE` the index holds the state given, whether it was an edge or not. -/
theorem bitGet_pressedAfter_bsEdge (m : BitSet) (idx : BitVec 16) (v : Bool) (l : Behaviour) (j : Nat) :
    bitGet (pressedAfter m (.bsEdge idx v l)) j = if j = idx.toNat then v else bitGet m j := by
  rw [pressedAfter_bsEdge]
  split
  next hsame =>
    split
    next hj => rw [hj, hsame]
    next => rfl
  next => exact bitGet_bitPut ..

/-- The latch bit after `BS_EDGE`: inverted on a latching press, else as it was. -/
theorem bitGet_latchedAfter_bsEdge (p m : BitSet) (idx : BitVec 16) (v : Bool) (l : Behaviour) :
    bitGet (latchedAfter p m (.bsEdge idx v l)) idx.toNat =
      if v ≠ bitGet p idx.toNat ∧ v = true ∧ l = .latching then !bitGet m idx.toNat else bitGet m idx.toNat := by
  rw [latchedAfter_bsEdge]
  split
  · exact (bitGet_bitPut ..).trans (if_pos rfl)
  · rfl

theorem latchedAfter_of_latchingRelease {p m : BitSet} : latchedAfter p m (.bsEdge idx false .latching) = m :=
  if_neg nofun

theorem latchedAfter_of_momentary {p m : BitSet} {v : Bool} : latchedAfter p m (.bsEdge idx v .momentary) = m :=
  if_neg nofun

/-! ## An index along a run of edge commands -/

/-- A `BS_` command on `idx` is legal in `s`, and the index holds the bits `p` and `b`. -/
structure IndexHolds (idx : BitVec 16) (p b : Bool) (s : State) : Prop where
  running : halted s = false
  onM : s.ports.active = .m
  inRange : idx.toNat < s.params.N
  pressed : bitGet s.pressed idx.toNat = p
  latched : bitGet s.latched idx.toNat = b

variable {p b : Bool}

theorem execState_of_exec {i : Instr} (h : exec i s = .next t) : execState i s = t := by
  simp [execState, h]

theorem IndexHolds.exec_bsEdge (h : IndexHolds idx p b s) (v : Bool) (l : Behaviour) :
    exec (.bsEdge idx v l) s = .next (s.buttonServed (.bsEdge idx v l)) :=
  exec_of_buttonLegal rfl h.running h.onM h.inRange

/-- What an index holds after `BS_EDGE` (R120). -/
theorem IndexHolds.buttonServed (h : IndexHolds idx p b s) (v : Bool) (l : Behaviour) :
    IndexHolds idx v (if v ≠ p ∧ v = true ∧ l = .latching then !b else b) (s.buttonServed (.bsEdge idx v l)) where
  running := h.running
  onM := h.onM
  inRange := h.inRange
  pressed := (bitGet_pressedAfter_bsEdge s.pressed idx v l idx.toNat).trans (if_pos rfl)
  latched := by rw [bitGet_latchedAfter_bsEdge, h.pressed, h.latched]

/-- `BS_EDGE` with the state already held only answers. -/
theorem IndexHolds.exec_bsEdge_of_held (h : IndexHolds idx p b s) (l : Behaviour) :
    exec (.bsEdge idx p l) s = .next { s with ports := mReply s 0x00000000 none none } := by
  rw [h.exec_bsEdge]
  simp [pressedAfter, latchedAfter, eventsAfter, buttonAnswer, edgeAnswer, dbrDriven, h.pressed]

theorem IndexHolds.press (h : IndexHolds idx false b s) :
    IndexHolds idx true (!b) (execState (.bsEdge idx true .latching) s) := by
  rw [execState_of_exec (h.exec_bsEdge ..)]
  exact h.buttonServed true .latching

theorem IndexHolds.release (h : IndexHolds idx true b s) :
    IndexHolds idx false b (execState (.bsEdge idx false .latching) s) := by
  rw [execState_of_exec (h.exec_bsEdge ..)]
  exact h.buttonServed false .latching

theorem IndexHolds.mRsp_press (h : IndexHolds idx false b s) :
    (execState (.bsEdge idx true .latching) s).ports.mRsp = some (sendAnswer (!b)) := by
  rw [execState_of_exec (h.exec_bsEdge ..)]
  simp [mReply, buttonAnswer, edgeAnswer, h.pressed, h.latched]

theorem IndexHolds.mRsp_release (h : IndexHolds idx true b s) :
    (execState (.bsEdge idx false .latching) s).ports.mRsp = some 0x00000004 := by
  rw [execState_of_exec (h.exec_bsEdge ..)]
  simp [mReply, buttonAnswer, edgeAnswer, h.pressed]

/-- After `k` presses with their releases, from a clear latch, the latch holds the parity of `k` (R123). -/
theorem IndexHolds.iterate_press_release (h : IndexHolds idx false false s) (k : Nat) :
    IndexHolds idx false k.bodd
      ((fun t => execState (.bsEdge idx false .latching) (execState (.bsEdge idx true .latching) t))^[k] s) := by
  induction k with
  | zero => exact h
  | succ k ih =>
    rw [Function.iterate_succ_apply', Nat.bodd_succ]
    exact ih.press.release

end

/-- Settles O45: the index holds the state given. -/
theorem edgeWithoutChangeDoesNothing : Obligations.EdgeWithoutChangeDoesNothing :=
  fun _ _ l _ hrun hport hlt hsame => IndexHolds.exec_bsEdge_of_held ⟨hrun, hport, hlt, hsame, rfl⟩ l

/-- Settles O46: the update and the answer of an edge, behaviour by behaviour. -/
theorem edgeRecordsAndToggles : Obligations.EdgeRecordsAndToggles := by
  intro idx v l s hrun hport hlt hedge
  obtain ⟨-, hpressedBytes⟩ := pressedAfter_differsOnlyAt (i := .bsEdge idx v l) rfl s.pressed
  obtain ⟨hlatchedBits, hlatchedBytes⟩ := latchedAfter_differsOnlyAt (i := .bsEdge idx v l) rfl s.pressed s.latched
  refine ⟨_, _, _, exec_of_buttonLegal rfl hrun hport hlt, bitGet_pressedAfter_bsEdge s.pressed idx v l, hpressedBytes,
    ?_, ?_, ?_⟩
  · rintro rfl rfl
    refine ⟨fun j => ?_, hlatchedBytes, (if_neg hedge.symm).trans (sendAnswer_not _)⟩
    split
    next hj =>
      rw [hj]
      exact (bitGet_latchedAfter_bsEdge ..).trans (if_pos ⟨hedge.symm, rfl, rfl⟩)
    next hj => exact hlatchedBits j hj
  · rintro rfl rfl
    exact ⟨latchedAfter_of_latchingRelease, if_neg hedge.symm⟩
  · rintro rfl
    exact ⟨latchedAfter_of_momentary, if_neg hedge.symm⟩

/-- Settles O47: the first command leaves the index with the state given. -/
theorem secondEqualEdgeIsANoOp : Obligations.SecondEqualEdgeIsANoOp := by
  intro idx v l k s t hrun hport hlt h
  have hfirst : IndexHolds idx _ _ s := ⟨hrun, hport, hlt, rfl, rfl⟩
  cases (hfirst.exec_bsEdge v l).symm.trans h
  exact (hfirst.buttonServed v l).exec_bsEdge_of_held k

/-- Settles O48: an ignored or faulted command keeps the latch, and a legal one inverts it on a latching press alone. -/
theorem latchFlipsOnlyOnALatchingPress : Obligations.LatchFlipsOnlyOnALatchingPress := by
  intro idx v l s t h
  refine ⟨fun hflip => ?_, fun hrun hport hlt hclear hv hl => ?_⟩
  · rcases exec_button_cases rfl h with ⟨_, hlatched⟩ | rfl
    · exact absurd (congrArg (bitGet · idx.toNat) hlatched) hflip
    · have hpress : v ≠ bitGet s.pressed idx.toNat ∧ v = true ∧ l = .latching := by
        by_contra hno
        exact hflip ((bitGet_latchedAfter_bsEdge ..).trans (if_neg hno))
      obtain ⟨hedge, rfl, hl⟩ := hpress
      exact ⟨Bool.eq_false_iff.mpr hedge.symm, rfl, hl⟩
  · subst hv hl
    have hfirst : IndexHolds idx false _ s := ⟨hrun, hport, hlt, hclear, rfl⟩
    rw [← execState_of_exec h]
    exact hfirst.press.latched

/-- Settles O49: before the `k`-th press the latch holds the parity of the presses so far. -/
theorem latchAlternatesOverPresses : Obligations.LatchAlternatesOverPresses := by
  intro idx s k hrun hport hlt hpressed hlatched press release before
  have hbefore : IndexHolds idx false k.bodd before :=
    IndexHolds.iterate_press_release ⟨hrun, hport, hlt, hpressed, hlatched⟩ k
  refine ⟨hbefore.mRsp_press.trans ?_, hbefore.press.mRsp_release⟩
  have hparity : (k + 1) % 2 = (!k.bodd).toNat := by rw [Nat.mod_two_of_bodd, Nat.bodd_succ]
  rw [hparity]
  cases k.bodd <;> rfl

end Sys2Proof.Machine
end

section
/-! PROOFS. Faults and the halt (spec/60_exceptions.md sections 2 to 4): what a step does with an arrival, the two ways a
command is refused whichever instruction it is, that only a fault entry halts the block, and that only the reset ends a
halt. -/

namespace Sys2Proof.Machine

section
variable {s t : State} {i : Instr} {op : Op} {effect : State → State} {o : Option Op}

/-! ## A command that is refused -/

theorem ignoreHalted_eq (s : State) : ignoreHalted s = { s with ports := fltReply s } := by
  rw [fltReply_eq_answer]
  rfl

theorem command_of_halted (hhalt : halted s = true) : command op effect s = ignoreHalted s := by
  simp [command, hhalt]

theorem command_of_wrongPort (hrun : halted s = false) (hport : s.ports.active ≠ op.port) :
    command op effect s = raise .wrongPort s := by
  simp [command, portLegal, hrun, hport]

/-- Every instruction is a command of its operation, so the checks of `command` come before its effect. -/
theorem exec_eq_command (i : Instr) : ∃ effect, ∀ s, exec i s = .next (command i.op effect s) := by
  cases i <;> exact ⟨_, fun _ => rfl⟩

theorem exec_of_halted (i : Instr) (hhalt : halted s = true) : exec i s = .next (ignoreHalted s) := by
  obtain ⟨effect, e⟩ := exec_eq_command i
  rw [e, command_of_halted hhalt]

theorem exec_of_wrongPort (hrun : halted s = false) (hport : s.ports.active ≠ i.op.port) :
    exec i s = .next (raise .wrongPort s) := by
  obtain ⟨effect, e⟩ := exec_eq_command i
  rw [e, command_of_wrongPort hrun hport]

/-! ## The step on an arrival -/

theorem step_of_idle (ha : arrival s = (.idle, t)) : step s = .next (idleStep t) := by
  simp [step, ha]

/-- In a halted block the command is ignored before it is decoded (R148). -/
theorem step_of_halted (ha : arrival s = (.command, t)) (hhalt : halted t = true) :
    step s = .next (ignoreHalted t) := by
  rw [step_of_command ha]
  simp [commandStep, hhalt]

/-! ## Entering a halt -/

theorem halted_eq_of_block_eq (h : t.block = s.block) : halted t = halted s :=
  congrArg (fun b : Block => faultValid b.fault) h

theorem halted_globalReset (s : State) : halted (globalReset s) = false := faultValid_zero

theorem Fault.code_range (c : Fault) : 1 ≤ c.code.toNat ∧ c.code.toNat ≤ 5 := by
  cases c <;> decide

/-- Of a command's effects, the fault entry alone writes `FAULT` (R34). -/
theorem CommandEffect.eq_raise_of_halts (h : CommandEffect s o t) (hrun : halted s = false) (hhalt : halted t = true) :
    ∃ c, t = raise c s := by
  cases h with
  | faulted c => exact ⟨c, rfl⟩
  | _ => exact nomatch hrun.symm.trans hhalt

/-! ## Staying in a halt -/

theorem step_no_reset (h : step s = .next t) (hno : .reset ∉ s.turns) : .reset ∉ t.turns :=
  step_turns h ▸ fun hmem => hno (List.mem_of_mem_tail hmem)

theorem step_block_of_halted (h : step s = .next t) (hhalt : halted s = true) (hno : .reset ∉ s.turns) :
    t.block = s.block := by
  rcases step_cases s with ⟨u, ha, e⟩ | ⟨u, ha, _⟩ | ⟨u, ha, _⟩
  · cases e.symm.trans h
    exact (arrival_frame ha).1
  · obtain ⟨ts, hturn⟩ := turns_of_arrival_reset ha
    exact absurd (hturn ▸ List.mem_cons_self) hno
  · have hblock := (arrival_frame ha).1
    cases (step_of_halted ha ((halted_eq_of_block_eq hblock).trans hhalt)).symm.trans h
    exact hblock

/-! ## Runs -/

theorem after_add (j : Nat) : ∀ (k : Nat) (s : State), after (k + j) s = after j (after k s)
  | 0, s => by rw [Nat.zero_add, after]
  | k + 1, s => by
    rw [Nat.succ_add]
    exact after_add j k (nextState s)

theorem after_no_reset (k : Nat) (hno : .reset ∉ s.turns) : .reset ∉ (after k s).turns :=
  after_induction (fun _ _ hno h => step_no_reset h hno) k s hno

theorem after_block_of_halted (k : Nat) (hhalt : halted s = true) (hno : .reset ∉ s.turns) :
    (after k s).block = s.block := by
  refine (after_induction (P := fun t => t.block = s.block ∧ .reset ∉ t.turns) ?_ k s ⟨rfl, hno⟩).1
  rintro t u ⟨hblock, hno⟩ h
  have hhalt' := (halted_eq_of_block_eq hblock).trans hhalt
  exact ⟨(step_block_of_halted h hhalt' hno).trans hblock, step_no_reset h hno⟩

theorem not_good_iff : ¬ Good s ↔ halted s = true := by
  rw [Good, Bool.not_eq_false]

end

/-! ## Faults -/

/-- Settles O13: the step is the fault entry, which writes `FAULT` and the ports alone. -/
theorem decodeFaultIsTaken : Obligations.DecodeFaultIsTaken := by
  intro s t c ha hrun hfetch
  exact ⟨(arrival_frame ha).1, _, raise_eq c t ▸ step_of_decodeFault ha hrun hfetch, records_packFault ..⟩

/-- Settles O14: an arrival and an idle step keep `FAULT`, the reset clears it, and a command that halts is a fault entry. -/
theorem faultEntryChangesOnlyFault : Obligations.FaultEntryChangesOnlyFault := by
  intro s u hrun h hhalt
  have arrives_running : ∀ {a t}, arrival s = (a, t) → halted t = false :=
    fun ha => (halted_eq_of_block_eq (arrival_frame ha).1).trans hrun
  rcases step_effect h with ⟨t, ha, rfl⟩ | ⟨t, ha, rfl⟩ | ⟨t, o, ha, heffect⟩
  · exact nomatch (arrives_running ha).symm.trans hhalt
  · exact nomatch (halted_globalReset t).symm.trans hhalt
  · obtain ⟨c, rfl⟩ := heffect.eq_raise_of_halts (arrives_running ha) hhalt
    obtain ⟨hlow, hhigh⟩ := c.code_range
    exact ⟨t, _, c.code, ha, (arrival_frame ha).1, raise_eq c t, hlow, hhigh, records_packFault ..⟩

/-- Settles O24: an instruction is a command of its operation, and `command` checks the port before the effect. -/
theorem wrongPortFaults : Obligations.WrongPortFaults := by
  intro i s hrun hport
  exact ⟨_, raise_eq .wrongPort s ▸ exec_of_wrongPort hrun hport, records_packFault .wrongPort _ _⟩

/-- Settles O25: an `OP` of 1 to 8 selects an operation, and the decoder compares its port before anything else. -/
theorem wordOnTheWrongPortFaults : Obligations.WordOnTheWrongPortFaults := by
  intro s t ha hrun hlow hhigh hport
  cases hop : opOfField (fieldOP t.ports.cmd) with
  | none =>
    rcases (opOfField_eq_none_iff _).mp hop with hzero | hnine
    · rw [show t.ports.cmd.extractLsb' 0 4 = 0 from hzero] at hlow
      exact absurd hlow (by decide)
    · exact absurd (hnine.trans hhigh) (by decide)
  | some op =>
    have hne : op.port ≠ t.ports.active := by
      rw [← BitVec.toNat_inj] at hport
      rwa [ne_eq, Op.port_eq_iff, code_of_opOfField hop]
    exact decodeFaultIsTaken s t .wrongPort ha hrun (decode_of_wrongPort hop hne)

/-! ## The halt -/

/-- Settles O17: an instruction is a command of its operation, and `command` ignores it in a halted block. -/
theorem haltedBlockIgnoresEveryInstruction : Obligations.HaltedBlockIgnoresEveryInstruction := by
  intro i s hhalt
  rw [exec_of_halted i hhalt, ignoreHalted_eq]

/-- Settles O16: the block that meets the command is as halted as the one before it. -/
theorem haltedBlockIgnoresCommands : Obligations.HaltedBlockIgnoresCommands := by
  intro s t hhalt ha
  have hblock := (arrival_frame ha).1
  have hhalt' := (halted_eq_of_block_eq hblock).trans hhalt
  exact ⟨ignoreHalted_eq t ▸ step_of_halted ha hhalt', hblock, hhalt', not_good_iff.mpr hhalt'⟩

/-- Settles O18: the whole block is kept by each step, so `FAULT` with it. -/
theorem onlyResetEndsAHalt : Obligations.OnlyResetEndsAHalt := by
  intro k s hhalt hno
  have hblock := after_block_of_halted k hhalt hno
  exact ⟨hblock, not_good_iff.mpr ((halted_eq_of_block_eq hblock).trans hhalt)⟩

/-- Settles O19: a halt at step `j` would last to step `k` (O18). -/
theorem goodEndMeansNoFaultBefore : Obligations.GoodEndMeansNoFaultBefore := by
  intro k j s hno hgood hle
  obtain ⟨d, rfl⟩ := Nat.exists_eq_add_of_le hle
  rw [after_add] at hgood
  by_contra hbad
  exact (onlyResetEndsAHalt d _ (not_good_iff.mp hbad) (after_no_reset j hno)).2 hgood

/-! ## The step -/

/-- Settles O8: a block that runs executes what it decoded; in a halted one step and instruction are both ignored. -/
theorem stepRunsTheDecodedInstruction : Obligations.StepRunsTheDecodedInstruction := by
  intro s t i ha hdecode
  rw [step_of_command ha]
  rcases commandStep_cases t with ⟨hhalt, e⟩ | ⟨_, c, hfetch, _⟩ | ⟨_, j, hfetch, e⟩
  · rw [e, exec_of_halted i hhalt]
  · exact nomatch hfetch.symm.trans hdecode
  · cases hfetch.symm.trans hdecode
    exact e

/-- Settles O11: the step is `idleStep`, which only clears the outputs. -/
theorem stepWithoutCommandIsIdle : Obligations.StepWithoutCommandIsIdle := by
  intro s t ha
  exact ⟨step_of_idle ha, (arrival_frame ha).1⟩

end Sys2Proof.Machine
end

section
/-! PROOFS. The global reset and the parameters of the build (spec/70_reset_and_hazards.md sections 1 and 2): the reset is
one step to the reset values of spec/10_state.md R40, and no step, the reset among them, touches the parameters. -/

namespace Sys2Proof.Machine

/-- The reset is not a command: no decoding, halt or port check comes before it (R149, R172). -/
theorem step_of_reset {s : State} {ts : List Turn} (hturn : s.turns = .reset :: ts) :
    step s = .next (globalReset { s with turns := ts }) := by
  simp [step, arrival, hturn]

/-- Settles O20: the reset leaves the elements of `State.resetFor`, whose values are O21's, with no output driven. -/
theorem globalResetTakesOneStep : Obligations.GlobalResetTakesOneStep := by
  intro s ts hturn
  obtain ⟨hhead, htail, hcount, hbuf, hrdsnap, hpressed, hlatched, hfault, hevents⟩ :=
    resetStateHasTheListedValues.1 s.params
  exact ⟨_, step_of_reset hturn, hhead, htail, hcount, hbuf, hrdsnap, hpressed, hlatched, hfault, hevents,
    rfl, rfl, rfl, rfl⟩

/-- Settles O12: the arrival, the idle step, the reset and each effect of a command keep the parameters. -/
theorem parametersNeverChange : Obligations.ParametersNeverChange := fun _ _ => step_params

end Sys2Proof.Machine
end
